-- ==== Sys2Proof/Word.lean ====
section
/-! DEFINITION. The two value widths of the unit, u8 and u32 (R5, R7), and the two masks `mod8` and `mod32` of R8. -/

namespace Sys2Proof

/-- A u8 of the spec (R7): a byte of the key, of the keystream, of a lane. -/
abbrev Byte := BitVec 8

/-- A u32 of the spec (R7): a register slot, a command word, the checksum and the counters. -/
abbrev Word := BitVec 32

/-- `mod8(v)` of R8: `v mod 256` for any integer `v`, negative included. -/
def mod8 (v : Int) : Byte := BitVec.ofInt 8 v

/-- `mod32(v)` of R8: `v mod 2^32` for any integer `v`, negative included. -/
def mod32 (v : Int) : Word := BitVec.ofInt 32 v

end Sys2Proof
end

