-- ==== Sys2Proof/Syntax.lean ====
section
/-! DEFINITION. The eight commands of the unit (R74), one constructor for each row of spec/opcode_table.json. -/

namespace Sys2Proof

/-- A command of the unit. The only operand is the byte count `N` of the two data commands (R72), written as the assembly
syntax of R77 writes it; `Instr.wf` says which counts are commands at all. Every other operand is implicit. -/
inductive Instr where
  /-- `NOP`, OP 0x0 (R160). -/
  | nop
  /-- `CIPH_INIT`, OP 0x1 (R140). -/
  | ciphInit
  /-- `CIPH_XFORM N`, OP 0x2 (R142). -/
  | ciphXform (n : Nat)
  /-- `KDF_RECOVER`, OP 0x3 (R122). -/
  | kdfRecover
  /-- `KEY_HDR`, OP 0x4 (R123). -/
  | keyHdr
  /-- `CSUM_INIT`, OP 0x5 (R101). -/
  | csumInit
  /-- `CSUM_FEED N`, OP 0x6 (R102). -/
  | csumFeed (n : Nat)
  /-- `SRESET`, OP 0x7 (R162). -/
  | sreset
  deriving DecidableEq, Repr

end Sys2Proof
end

