-- ==== Sys2Proof/WellFormed.lean ====
section
/-! DEFINITION. Which terms of `Instr` are commands of the unit: the byte count is in 1..4 (R72, R77). -/

namespace Sys2Proof

/-- R72: `N = zext_3(NM1) + 1`, so `N` is 1..4; R77: a count outside 1..4 is an assembly error. -/
abbrev countOk (n : Nat) : Prop := 1 ≤ n ∧ n ≤ 4

/-- The command can be encoded (R72, R77). -/
def Instr.wf : Instr → Bool
  | .nop => true
  | .ciphInit => true
  | .ciphXform n => decide (countOk n)
  | .kdfRecover => true
  | .keyHdr => true
  | .csumInit => true
  | .csumFeed n => decide (countOk n)
  | .sreset => true

end Sys2Proof
end

