-- ==== Sys2Proof/Decode.lean ====
section
/-! DEFINITION. The command word: its fields (R71), its decoding (R73), the names of the illegal words (R75), and its encoding
(R72, R74, R77). -/

namespace Sys2Proof

/-- Field `OP`, bits [3:0] (R71). -/
def opField (w : Word) : BitVec 4 := w.extractLsb' 0 4

/-- Field `NM1`, bits [5:4] (R71). -/
def nm1Field (w : Word) : BitVec 2 := w.extractLsb' 4 2

/-- Field `RSV`, bits [31:6] (R71). -/
def rsvField (w : Word) : BitVec 26 := w.extractLsb' 6 26

/-- Why a word is illegal: the three bullets of R75. -/
inductive Illegal where
  /-- A reserved bit [31:6] is set. -/
  | reservedBits
  /-- `NM1 != 0` on a command that takes no byte count. -/
  | byteCount
  /-- `OP` in 0x8..0xF. -/
  | opcode
  deriving DecidableEq, Repr

/-- A command that takes no byte count is legal only with `NM1 = 0` (R73). -/
def decodeFixed (nm1 : BitVec 2) (i : Instr) : Except Illegal Instr :=
  if nm1 = 0 then .ok i else .error .byteCount

/-- `N = NM1 + 1` (R72). -/
def countOf (nm1 : BitVec 2) : Nat := nm1.toNat + 1

/-- `decode(w)` of R73. -/
def decode (w : Word) : Except Illegal Instr :=
  if rsvField w ≠ 0 then .error .reservedBits
  else
    match (opField w).toNat with
    | 0x0 => decodeFixed (nm1Field w) .nop
    | 0x1 => decodeFixed (nm1Field w) .ciphInit
    | 0x2 => .ok (.ciphXform (countOf (nm1Field w)))
    | 0x3 => decodeFixed (nm1Field w) .kdfRecover
    | 0x4 => decodeFixed (nm1Field w) .keyHdr
    | 0x5 => decodeFixed (nm1Field w) .csumInit
    | 0x6 => .ok (.csumFeed (countOf (nm1Field w)))
    | 0x7 => decodeFixed (nm1Field w) .sreset
    | _ => .error .opcode

/-- The word with the given `OP` and `NM1` and every reserved bit 0 (R71). -/
def commandWord (op : BitVec 4) (nm1 : BitVec 2) : Word := (0#26 ++ nm1) ++ op

/-- The word of a command (R74); `NM1 = N - 1` (R77). Its value means something on well-formed commands only. -/
def encode : Instr → Word
  | .nop => commandWord 0x0 0
  | .ciphInit => commandWord 0x1 0
  | .ciphXform n => commandWord 0x2 (BitVec.ofNat 2 (n - 1))
  | .kdfRecover => commandWord 0x3 0
  | .keyHdr => commandWord 0x4 0
  | .csumInit => commandWord 0x5 0
  | .csumFeed n => commandWord 0x6 (BitVec.ofNat 2 (n - 1))
  | .sreset => commandWord 0x7 0

/-- R77: the assembler encodes a well-formed command and refuses any other. -/
def assemble (i : Instr) : Option Word :=
  if i.wf then some (encode i) else none

/-- The fourteen legal words, as R74 lists them. -/
def legalWords : List Word :=
  [0x00000000, 0x00000001,
   0x00000002, 0x00000012, 0x00000022, 0x00000032,
   0x00000003, 0x00000004, 0x00000005,
   0x00000006, 0x00000016, 0x00000026, 0x00000036,
   0x00000007]

/-- The command the decoder reads from the first `nbits` bits of `w`. A command is one 32-bit word (R71), so bits above 31 are
part of no command. -/
def decodeTableWord (nbits w : Nat) : Option Instr :=
  if w % 2 ^ nbits < 2 ^ 32 then (decode (BitVec.ofNat 32 (w % 2 ^ nbits))).toOption else none

end Sys2Proof
end

