-- ==== Sys2Proof/Machine/Bits.lean ====
section
/-! DEFINITION. Bit-level helpers: rotations (R9), byte lanes and their packing (R10, R56). -/

namespace Sys2Proof.Machine

/-- `rotl32(x, n)` of R9, for `0 < n < 32`. -/
def rotl32 (x : Word) (n : Nat) : Word := (x <<< n) ||| (x >>> (32 - n))

/-- `rotl8(x)` of R9: a one-bit left rotation of a byte, spelled as the spec spells it. -/
def rotl8 (x : Byte) : Byte := (x >>> 7) ||| ((x &&& 0x7F#8) <<< 1)

/-- `lane(w, i)` of R10: bits `[8i+7:8i]`. -/
def lane (w : Word) (i : Nat) : Byte := w.extractLsb' (8 * i) 8

/-- A byte as the lane `p` of an otherwise zero word: `b << (8*p)` (R10, R102). -/
def atLane (b : Byte) (p : Nat) : Word := b.setWidth 32 <<< (8 * p)

/-- `le32(b0, b1, b2, b3)` of R10. -/
def le32 (b0 b1 b2 b3 : Byte) : Word := atLane b0 0 + atLane b1 1 + atLane b2 2 + atLane b3 3

/-- The four lanes of a word in stream order, lane 0 first (R56). -/
def lanes (w : Word) : List Byte := [lane w 0, lane w 1, lane w 2, lane w 3]

/-- The word whose lanes are the given bytes in stream order, the lanes beyond them 0 (R143). -/
def ofLanes (bs : List Byte) : Word := le32 (bs.getD 0 0) (bs.getD 1 0) (bs.getD 2 0) (bs.getD 3 0)

end Sys2Proof.Machine
end

