-- ==== Sys2Proof/Config.lean ====
section
/-! DEFINITION. The three parameters the spec leaves open (92_eei_decisions.md D1, D12, D23): constants with no body, so that
nothing can be proved of their values. -/

namespace Sys2Proof

/-- `HEADER_KEY[0..7]` (R4, I12): the fixed key that KEY_HDR loads; its value is in no source. Log entry 4: free, safe. -/
opaque Config.headerKey : Vector Byte 8

/-- `SCK_BASE` of each unit (R3, R213, I11): the bus address of that unit's register offset 0x00, a parameter of the platform. A unit
has no identifier register (R213), so its number here is the platform's and no unit can read it. Log entry 3: free, safe. -/
opaque Config.sckBase : Nat → Nat

/-- The number of units of the platform beyond the first; see `Config.sckInstances`. Log entry 5: free, safe. -/
opaque Config.furtherInstances : Nat

/-- `SCK_INSTANCES` (R6, I13): the number of independent units of the platform, at least 1. -/
def Config.sckInstances : Nat := Config.furtherInstances + 1

end Sys2Proof
end

