-- ==== Sys2Proof/Machine/State.lean ====
section
/-! DEFINITION. The state of the unit (R20), its boundary with the host (R62, R163, R164), the reset state (R230) and the ways a
step can stop. -/

namespace Sys2Proof.Machine

/-- The fifteen defined slots of the register window (R50). -/
inductive Slot where
  | cmd | status | din | dout | keyLo | keyHi | rawLo | rawHi | ctr | lk | csAcc | csCarry | csCnt | csLen | csExp
  deriving DecidableEq, Repr

/-- Whether a host access reads or writes (R53). -/
inductive AccessKind where
  | read | write
  deriving DecidableEq, Repr

/-- What can happen to the unit from outside: the two access primitives of R163 and R164, of any width at any offset, and the
hardware reset of R230 and R231 (loss of power is one, R215). `off` is the offset from `SCK_BASE` (R3). DESIGN CHOICE, safe: log
entries 8 and 10. -/
inductive HostEvent where
  /-- `HostRead(off, width)` (R164). -/
  | read (off width : Nat)
  /-- `HostWrite(off, width, value)` (R163). -/
  | write (off width : Nat) (value : Word)
  /-- The platform's reset signal, or loss of power (R215, R231). -/
  | hardReset
  deriving DecidableEq, Repr

/-- The unit's complete architectural state (R20): exactly these fourteen fields. -/
structure Regs where
  /-- `DIN`: data input lanes (R22). -/
  din : Word
  /-- `DOUT`: data output lanes (R23). -/
  dout : Word
  /-- `KEY[0..7]`: the cipher key (R24). -/
  key : Vector Byte 8
  /-- `RAW[0..7]`: raw block bytes for KDF_RECOVER (R26). -/
  raw : Vector Byte 8
  /-- `CTR`: bytes processed since CIPH_INIT (R27). -/
  ctr : Word
  /-- `LK`: the keystream byte for counter `CTR` (R28, C6). -/
  lk : Byte
  /-- `SIGERR`: a signature mismatch was seen (R34, R144). -/
  sigerr : Bool
  /-- `CS_ACC`: the checksum accumulator (R29). -/
  csAcc : Word
  /-- `CS_CARRY`: the checksum carry (R30). -/
  csCarry : Word
  /-- `CS_CNT`: bytes folded since CSUM_INIT (R31). -/
  csCnt : Word
  /-- `CS_LEN`: the declared size of the checksum range (R32). -/
  csLen : Word
  /-- `CS_EXP`: the expected checksum (R33). -/
  csExp : Word
  /-- `ILL`: an illegal command was written (R34, R200). -/
  ill : Bool
  /-- `ACCERR`: an ill-formed access was made (R34, R201). -/
  accerr : Bool
  deriving DecidableEq, Repr

/-- The reset values of R230, the same for a hardware reset and for SRESET. -/
def Regs.reset : Regs where
  din := 0
  dout := 0
  key := #v[0, 0, 0, 0, 0, 0, 0, 0]
  raw := #v[0, 0, 0, 0, 0, 0, 0, 0]
  ctr := 0
  lk := 0
  sigerr := false
  csAcc := 0
  csCarry := 0
  csCnt := 0
  csLen := 0
  csExp := 0
  ill := false
  accerr := false

/-- The unit with its boundary to the host. The unit acts only inside a host access (R38, R39), so what a step does is decided by
the oldest access the host has issued. `pending` and `reply` are the model's own fields (log entry 1, DESIGN CHOICE). -/
structure State where
  /-- The unit's registers (R20). -/
  regs : Regs
  /-- The host events not yet applied, oldest first: the unit applies them one at a time in this order (R62). -/
  pending : List HostEvent
  /-- What the last applied event returned to the host: the value of a read, nothing for a write or a reset. -/
  reply : Option Word
  deriving DecidableEq, Repr

/-- The machine right after reset (R230): every register at its reset value, and the host has issued nothing (log entry 1). -/
def State.reset : State where
  regs := Regs.reset
  pending := []
  reply := none

/-- The state with its registers replaced. -/
def State.withRegs (s : State) (r : Regs) : State := { s with regs := r }

/-- The state after the host event at the head of `pending` is taken, with `rest` still to come and `answer` returned. -/
def State.taken (s : State) (rest : List HostEvent) (answer : Option Word) : State :=
  { s with pending := rest, reply := answer }

/-- The state in which the host has issued further accesses, after those already pending (R62). -/
def State.issue (s : State) (es : List HostEvent) : State := { s with pending := s.pending ++ es }

/-- No condition stops the unit: ILL, ACCERR and SIGERR are sticky flags after which it goes on (R207, R209, R255). So there is no
fault, nothing raises one, and that is exact, neither safe nor unsafe. -/
inductive Fault where
  deriving DecidableEq, Repr

/-- Why a step has no meaning in this model. -/
inductive Refusal where
  /-- An instruction that has no meaning yet. Raised by no arm of `exec`. Safe. -/
  | notModelled (mnemonic : String)
  /-- The head of `pending` is an access at an offset of 0x40 or more: such a bus address does not select the unit, and what it
  reaches is the platform's concern (R50, I14). Raised by `fetch`. Safe. -/
  | outsideWindow (off : Nat)
  /-- A data command with a byte count outside 1..4: no word encodes it and the assembler refuses it (R72, R77). Raised by the
  meanings of CIPH_XFORM and CSUM_FEED on terms that decoding never gives. Safe. -/
  | countOutOfRange (n : Nat)
  deriving DecidableEq, Repr

end Sys2Proof.Machine
end

