-- ==== Sys2Proof/Machine/Flags.lean ====
section
/-! DEFINITION. The STATUS register: its computed bits, its value and the write that clears flags (R34, R35, R36). -/

namespace Sys2Proof.Machine

/-- `SIGDONE`, computed: `CTR >= 16` (R34, R36). -/
def sigdone (r : Regs) : Bool := decide (16 ≤ r.ctr.toNat)

/-- `CSEQ`, computed: `CS_ACC == CS_EXP` (R34, R36, R203). -/
def cseq (r : Regs) : Bool := decide (r.csAcc = r.csExp)

/-- A flag as bit `k` of an otherwise zero word. -/
def flagBit (b : Bool) (k : Nat) : Word := (BitVec.ofBool b).setWidth 32 <<< k

/-- The value a read of STATUS returns (R36); bits [31:5] are 0. -/
def statusWord (r : Regs) : Word :=
  flagBit r.ill 0 ||| flagBit r.accerr 1 ||| flagBit r.sigerr 2 ||| flagBit (sigdone r) 3 ||| flagBit (cseq r) 4

/-- A host write of `v` to STATUS: write-one-to-clear on bits [2:0], nothing else (R35). -/
def clearFlags (v : Word) (r : Regs) : Regs :=
  { r with
    ill := if v.getLsbD 0 then false else r.ill
    accerr := if v.getLsbD 1 then false else r.accerr
    sigerr := if v.getLsbD 2 then false else r.sigerr }

end Sys2Proof.Machine
end

