-- ==== Sys2Proof/Machine/Ops.lean ====
section
/-! DEFINITION. The named operations over the registers: raising a condition, the signature ROM, and reading and writing a slot
of the window. -/

namespace Sys2Proof.Machine

/-- The three error conditions of the unit (R200, R201, R202). -/
inductive Condition where
  | illegalCommand | accessError | signatureMismatch
  deriving DecidableEq, Repr

/-- Raising a condition: its sticky STATUS flag is set and nothing else happens (R11, R200, R201, R202). The unit has no trap
entry: nothing is saved, no mode changes and control goes nowhere (R207). There is no return either (R208): a flag is cleared by
`clearFlags`, by the commands that clear it and by reset. -/
def raise (c : Condition) (r : Regs) : Regs :=
  match c with
  | .illegalCommand => { r with ill := true }
  | .accessError => { r with accerr := true }
  | .signatureMismatch => { r with sigerr := true }

/-- Raises the condition where its test holds. -/
def raiseIf (test : Bool) (c : Condition) (r : Regs) : Regs := if test then raise c r else r

/-- The signature ROM `SIG[0..15]`: the ASCII bytes of "ONKYO Encryption" (R25; PRESUMED by the spec, unsafe: log entry 6). -/
def sig : Vector Byte 16 :=
  #v[0x4F, 0x4E, 0x4B, 0x59, 0x4F, 0x20, 0x45, 0x6E, 0x63, 0x72, 0x79, 0x70, 0x74, 0x69, 0x6F, 0x6E]

/-- The offset of a slot (R50). -/
def Slot.offset : Slot → Nat
  | .cmd => 0x00
  | .status => 0x04
  | .din => 0x08
  | .dout => 0x0C
  | .keyLo => 0x10
  | .keyHi => 0x14
  | .rawLo => 0x18
  | .rawHi => 0x1C
  | .ctr => 0x20
  | .lk => 0x24
  | .csAcc => 0x28
  | .csCarry => 0x2C
  | .csCnt => 0x30
  | .csLen => 0x34
  | .csExp => 0x38

/-- The slot at an offset (R50): none at 0x3C, at an offset that is no multiple of 4, or outside the window. -/
def slotAt : Nat → Option Slot
  | 0x00 => some .cmd
  | 0x04 => some .status
  | 0x08 => some .din
  | 0x0C => some .dout
  | 0x10 => some .keyLo
  | 0x14 => some .keyHi
  | 0x18 => some .rawLo
  | 0x1C => some .rawHi
  | 0x20 => some .ctr
  | 0x24 => some .lk
  | 0x28 => some .csAcc
  | 0x2C => some .csCarry
  | 0x30 => some .csCnt
  | 0x34 => some .csLen
  | 0x38 => some .csExp
  | _ => none

/-- The slot a well-formed access reaches, and none for an ill-formed one (R53): the width is 4, the offset is that of a defined
slot (so a multiple of 4), and it is no write to DOUT. -/
def wellFormedSlot (k : AccessKind) (off width : Nat) : Option Slot :=
  if width = 4 then
    match slotAt off with
    | some sl => if k = .write ∧ sl = .dout then none else some sl
    | none => none
  else none

/-- `KEY_LO` or `RAW_LO`: bytes 0..3 of a bank, packed (R24, R26). -/
def bankLo (b : Vector Byte 8) : Word := le32 b[0] b[1] b[2] b[3]

/-- `KEY_HI` or `RAW_HI`: bytes 4..7 of a bank, packed (R24, R26). -/
def bankHi (b : Vector Byte 8) : Word := le32 b[4] b[5] b[6] b[7]

/-- A write to the low half of a bank: byte `i` becomes `lane(v, i)` (R24, R26). -/
def setBankLo (b : Vector Byte 8) (v : Word) : Vector Byte 8 :=
  #v[lane v 0, lane v 1, lane v 2, lane v 3, b[4], b[5], b[6], b[7]]

/-- A write to the high half of a bank: byte `4+i` becomes `lane(v, i)` (R24, R26). -/
def setBankHi (b : Vector Byte 8) (v : Word) : Vector Byte 8 :=
  #v[b[0], b[1], b[2], b[3], lane v 0, lane v 1, lane v 2, lane v 3]

/-- What a well-formed read of a slot returns (R164). -/
def readSlot (sl : Slot) (r : Regs) : Word :=
  match sl with
  | .cmd => 0
  | .status => statusWord r
  | .din => r.din
  | .dout => r.dout
  | .keyLo => bankLo r.key
  | .keyHi => bankHi r.key
  | .rawLo => bankLo r.raw
  | .rawHi => bankHi r.raw
  | .ctr => r.ctr
  | .lk => r.lk.setWidth 32
  | .csAcc => r.csAcc
  | .csCarry => r.csCarry
  | .csCnt => r.csCnt
  | .csLen => r.csLen
  | .csExp => r.csExp

/-- What a well-formed write of `v` to a slot other than CMD stores (R163). CMD holds nothing (a write to it runs a command
instead: `applyWrite`), and no well-formed write reaches DOUT, so both are left as they are here. -/
def writeSlot (sl : Slot) (v : Word) (r : Regs) : Regs :=
  match sl with
  | .cmd => r
  | .status => clearFlags v r
  | .din => { r with din := v }
  | .dout => r
  | .keyLo => { r with key := setBankLo r.key v }
  | .keyHi => { r with key := setBankHi r.key v }
  | .rawLo => { r with raw := setBankLo r.raw v }
  | .rawHi => { r with raw := setBankHi r.raw v }
  | .ctr => { r with ctr := v }
  | .lk => { r with lk := v.setWidth 8 }
  | .csAcc => { r with csAcc := v }
  | .csCarry => { r with csCarry := v }
  | .csCnt => { r with csCnt := v }
  | .csLen => { r with csLen := v }
  | .csExp => { r with csExp := v }

/-- `HostRead(off, n)` of R164: the value returned and the registers after it. -/
def hostRead (off width : Nat) (r : Regs) : Word × Regs :=
  match wellFormedSlot .read off width with
  | some sl => (readSlot sl r, r)
  | none => (0, raise .accessError r)

end Sys2Proof.Machine
end

