-- ==== Sys2Proof/Machine/Bus.lean ====
section
/-! DEFINITION. The host's accesses: which bus addresses select the unit (R3, R50), and what the oldest pending event does, up to
the command a CMD write runs (R70, R163, R164, R204, R230). -/

namespace Sys2Proof.Machine

/-- The window is 64 bytes long (R2, R50). -/
def windowSize : Nat := 64

/-- The offset a bus address selects in the window at `base`, and none for an address that does not select the unit (R3, R50). -/
def windowOffset (base addr : Nat) : Option Nat :=
  if base ≤ addr ∧ addr < base + windowSize then some (addr - base) else none

/-- What a bus read comes to at a unit with its window at `base`: an access at the offset, and none where the unit is not selected. -/
def busRead (base addr width : Nat) : Option HostEvent :=
  (windowOffset base addr).map fun off => .read off width

/-- What a bus write comes to at a unit with its window at `base`: an access at the offset, and none where the unit is not selected. -/
def busWrite (base addr width : Nat) (v : Word) : Option HostEvent :=
  (windowOffset base addr).map fun off => .write off width v

/-- What taking the oldest pending event comes to. -/
inductive Fetched where
  /-- The event is complete in this state. -/
  | done (s : State)
  /-- The event wrote this legal command, which runs in this state. -/
  | command (i : Instr) (s : State)
  /-- The event is outside the unit. -/
  | refused (r : Refusal)
  deriving DecidableEq, Repr

/-- The event is complete; its effect on the registers is `f`. -/
def finish (f : Regs → Regs) (s : State) : Fetched := .done (s.withRegs (f s.regs))

/-- A well-formed write to CMD: the command of a legal word, or IllegalCommand (R70, R163, R200). -/
def applyCommand (v : Word) (s : State) : Fetched :=
  match decode v with
  | .ok i => .command i s
  | .error _ => finish (raise .illegalCommand) s

/-- `HostWrite(off, n, v)` of R163, with the access check before the command check (R204). -/
def applyWrite (off width : Nat) (v : Word) (s : State) : Fetched :=
  match wellFormedSlot .write off width with
  | none => finish (raise .accessError) s
  | some .cmd => applyCommand v s
  | some sl => finish (writeSlot sl v) s

/-- `HostRead(off, n)` of R164: the value goes to the host. `rest` are the events still pending. -/
def applyRead (off width : Nat) (rest : List HostEvent) (s : State) : Fetched :=
  let answer := hostRead off width s.regs
  .done ((s.taken rest (some answer.1)).withRegs answer.2)

/-- Takes the oldest pending event (R62). With none pending the unit is idle and nothing changes (R38, R231; DEDUCED, safe:
log entry 2). -/
def fetch (s : State) : Fetched :=
  match s.pending with
  | [] => .done s
  | .hardReset :: rest => finish (fun _ => Regs.reset) (s.taken rest none)
  | .read off width :: rest =>
    if off < windowSize then applyRead off width rest s else .refused (.outsideWindow off)
  | .write off width v :: rest =>
    if off < windowSize then applyWrite off width v (s.taken rest none) else .refused (.outsideWindow off)

/-- The host write that issues the command word whose low `nbits` bits are those of `w` (R70). -/
def commandWrite (nbits w : Nat) : HostEvent := .write 0x00 4 (BitVec.ofNat 32 (w % 2 ^ nbits))

end Sys2Proof.Machine
end

