-- ==== Sys2Proof/Machine/Operands.lean ====
section
/-! DEFINITION. The one operand form: the byte count and the DIN lanes it selects (R72). -/

namespace Sys2Proof.Machine

/-- The bytes a data command takes: lanes `0..N-1` of DIN, lane 0 first (R72). -/
def inputBytes (n : Nat) (r : Regs) : List Byte := (lanes r.din).take n

/-- Runs a data command's effect on its input bytes. A count outside 1..4 is no command of the unit (R72, R77); it is refused,
and decoding never gives one (log entry 7). -/
def withInput (n : Nat) (effect : List Byte → Regs → Regs) (s : State) : Host.Outcome State Fault Refusal :=
  if countOk n then .next (s.withRegs (effect (inputBytes n s.regs) s.regs)) else .refused (.countOutOfRange n)

end Sys2Proof.Machine
end

