-- ==== Sys2Proof/Machine/Checksum.lean ====
section
/-! DEFINITION. The checksum unit: CSUM_INIT and CSUM_FEED (R101, R102). -/

namespace Sys2Proof.Machine

/-- One byte of CSUM_FEED (R102). -/
def foldByte (r : Regs) (b : Byte) : Regs :=
  if r.csLen.toNat ≠ 0 ∧ r.csCnt.toNat < r.csLen.toNat - 1 then
    let p := r.csCnt.toNat % 4
    let acc := if p = 0 then r.csCarry + b.setWidth 32 else r.csAcc + atLane b p
    { r with
      csAcc := acc
      csCarry := if p = 3 then rotl32 acc 11 else r.csCarry
      csCnt := r.csCnt + 1 }
  else r

/-- The effect of CSUM_FEED on its input bytes, lane 0 first (R102). -/
def foldBytes (bs : List Byte) (r : Regs) : Regs := bs.foldl foldByte r

/-- The effect of CSUM_INIT (R101). -/
def startChecksum (r : Regs) : Regs := { r with csAcc := 0, csCarry := 0, csCnt := 0 }

/-- `CSUM_INIT` (R101). -/
def execCsumInit (s : State) : Host.Outcome State Fault Refusal := .next (s.withRegs (startChecksum s.regs))

/-- `CSUM_FEED N` (R102). -/
def execCsumFeed (n : Nat) (s : State) : Host.Outcome State Fault Refusal := withInput n foldBytes s

end Sys2Proof.Machine
end

