-- ==== Sys2Proof/Machine/Cipher.lean ====
section
/-! DEFINITION. The stream cipher: CIPH_INIT and CIPH_XFORM (R140, R141, R142, R143, R144). -/

namespace Sys2Proof.Machine

/-- The keystream byte used at counter `c`: at counter 0 the register is reseeded from `key[0]` (R141 step 1). -/
def seeded (key : Vector Byte 8) (c : Word) (lk : Byte) : Byte := if c = 0 then key[0] else lk

/-- `KEY[j+1]` with `j = c % 7`: an index in 1..7 (R141 steps 3 and 4). -/
def scheduleByte (key : Vector Byte 8) (c : Word) : Byte := key[c.toNat % 7 + 1]'(by omega)

/-- The next keystream byte, from the one used at counter `c` (R141 step 4): one sum, masked once. -/
def nextKeystream (key : Vector Byte 8) (c : Word) (lk : Byte) : Byte :=
  let carryBit := lk >>> 7
  let feedback := carryBit ||| ((lk &&& 0x7F#8) <<< 1)
  mod8 ((scheduleByte key c).toNat + feedback.toNat + (c.toNat >>> 6))

/-- `cipher_step(b, key, c, lk) -> (o, c', lk')` of R141. -/
def cipherStep (b : Byte) (key : Vector Byte 8) (c : Word) (lk : Byte) : Byte × Word × Byte :=
  let lk := seeded key c lk
  (b ^^^ lk, c + 1, nextKeystream key c lk)

/-- The self-check of R144 fails for output `o` at counter `c`: `c < 16` and `o != SIG[c]`. -/
def sigMismatch (c : Word) (o : Byte) : Bool :=
  if h : c.toNat < 16 then o != sig[c.toNat] else false

/-- One byte of CIPH_XFORM: its output and the registers after it (R142). -/
def xformByte (b : Byte) (r : Regs) : Byte × Regs :=
  let out := cipherStep b r.key r.ctr r.lk
  let r' := { r with ctr := out.2.1, lk := out.2.2 }
  (out.1, raiseIf (sigMismatch r.ctr out.1) .signatureMismatch r')

/-- The bytes of one CIPH_XFORM in order, each on the registers the one before it left (R142). -/
def xformBytes : List Byte → Regs → List Byte × Regs
  | [], r => ([], r)
  | b :: bs, r =>
    let first := xformByte b r
    let later := xformBytes bs first.2
    (first.1 :: later.1, later.2)

/-- The effect of CIPH_XFORM on its input bytes: DOUT gets the output bytes, and 0 in the lanes beyond them (R142, R143). -/
def transform (bs : List Byte) (r : Regs) : Regs :=
  let done := xformBytes bs r
  { done.2 with dout := ofLanes done.1 }

/-- The effect of CIPH_INIT (R140). -/
def startBlock (r : Regs) : Regs := { r with ctr := 0, lk := 0, sigerr := false }

/-- `CIPH_INIT` (R140). -/
def execCiphInit (s : State) : Host.Outcome State Fault Refusal := .next (s.withRegs (startBlock s.regs))

/-- `CIPH_XFORM N` (R142). -/
def execCiphXform (n : Nat) (s : State) : Host.Outcome State Fault Refusal := withInput n transform s

end Sys2Proof.Machine
end

