-- ==== Sys2Proof/Machine/Control.lean ====
section
/-! DEFINITION. The control commands: NOP and SRESET (R160, R162). -/

namespace Sys2Proof.Machine

/-- `NOP` (R160): no state changes. -/
def execNop (s : State) : Host.Outcome State Fault Refusal := .next s

/-- `SRESET` (R162): every field of R20 takes its reset value. The accesses the host has yet to make are not the unit's state. -/
def execSreset (s : State) : Host.Outcome State Fault Refusal := .next (s.withRegs Regs.reset)

end Sys2Proof.Machine
end

