-- ==== Sys2Proof/Machine/KeyRecovery.lean ====
section
/-! DEFINITION. Key recovery and the header key: KDF_RECOVER and KEY_HDR (R120, R122, R123). -/

namespace Sys2Proof.Machine

/-- One round of the recovery loop of R120: `lk` is the previous derived keystream byte and `next` the one just derived from the
signature and the raw byte; the result is the key byte. The carry and the feed come from `lk`, not from a key byte (C8). -/
def recoverByte (lk next : Byte) : Byte :=
  let carryBit := lk >>> 7
  let lk7 := lk &&& 0x7F#8
  let feed := carryBit ||| (lk7 <<< 1)
  mod8 (next.toNat + 256 * carryBit.toNat - feed.toNat)

/-- `SIG[j] XOR raw[j]`, the keystream byte that known plaintext gives at counter `j` (R120). -/
def derived (raw : Vector Byte 8) (j : Fin 8) : Byte := sig[j.val] ^^^ raw[j.val]

/-- `recover_key_ref(raw[0..7])` of R120: `key[0]` is the first derived byte and `key[j]`, for `j` in 1..7 (C2), one round on the
derived bytes `j-1` and `j`. -/
def recoverKey (raw : Vector Byte 8) : Vector Byte 8 :=
  #v[derived raw 0,
     recoverByte (derived raw 0) (derived raw 1),
     recoverByte (derived raw 1) (derived raw 2),
     recoverByte (derived raw 2) (derived raw 3),
     recoverByte (derived raw 3) (derived raw 4),
     recoverByte (derived raw 4) (derived raw 5),
     recoverByte (derived raw 5) (derived raw 6),
     recoverByte (derived raw 6) (derived raw 7)]

/-- Both key commands write only `KEY[0..7]` (R122, R123, D29). -/
def loadKey (k : Vector Byte 8) (r : Regs) : Regs := { r with key := k }

/-- `KDF_RECOVER` (R122). -/
def execKdfRecover (s : State) : Host.Outcome State Fault Refusal :=
  .next (s.withRegs (loadKey (recoverKey s.regs.raw) s.regs))

/-- `KEY_HDR` (R123): the key loaded is the parameter HEADER_KEY (R4). -/
def execKeyHdr (s : State) : Host.Outcome State Fault Refusal :=
  .next (s.withRegs (loadKey Config.headerKey s.regs))

end Sys2Proof.Machine
end

