-- ==== Sys2Proof/Machine/Dispatch.lean ====
section
/-! DEFINITION. Running a command: one arm for each constructor of `Instr` (R74). -/

namespace Sys2Proof.Machine

def exec (i : Instr) (s : State) : Host.Outcome State Fault Refusal :=
  match i with
  | .nop => Sys2Proof.Machine.execNop s
  | .ciphInit => Sys2Proof.Machine.execCiphInit s
  | .ciphXform n => Sys2Proof.Machine.execCiphXform n s
  | .kdfRecover => Sys2Proof.Machine.execKdfRecover s
  | .keyHdr => Sys2Proof.Machine.execKeyHdr s
  | .csumInit => Sys2Proof.Machine.execCsumInit s
  | .csumFeed n => Sys2Proof.Machine.execCsumFeed n s
  | .sreset => Sys2Proof.Machine.execSreset s

end Sys2Proof.Machine
end

