-- ==== Sys2Proof/Machine/Step.lean ====
section
/-! DEFINITION. One step: the unit applies the oldest pending host event, a command running to completion within it (R39, R59, R62). -/

namespace Sys2Proof.Machine

/-- One host event, applied completely (R59, R62, R254). -/
def step (s : State) : Host.Outcome State Fault Refusal :=
  match fetch s with
  | .done s' => .next s'
  | .command i s' => exec i s'
  | .refused r => .refused r

/-- The unit fetches no instructions (R64): a command reaches it as a host write to CMD (R70). So the very next step runs the
command of `w` when that write stands at the head of the pending events. -/
def State.withFetchWord (s : State) (nbits w : Nat) : State :=
  { s with pending := commandWrite nbits w :: s.pending }

end Sys2Proof.Machine
end

