-- ==== Sys2Proof/Machine/Assembly.lean ====
section
/-! DEFINITION. The host assembly language of R76, R77 and R78: its lines, their expansion into host events, and their text. -/

namespace Sys2Proof.Machine

/-- A line of a host program (R76, R77, R78). Immediates are numbers as written; `expandLine` refuses those out of range. -/
inductive AsmLine where
  /-- `WR <reg>, <imm32>` (R76). -/
  | wr (reg : Slot) (imm : Nat)
  /-- `RD <reg>` (R76). -/
  | rd (reg : Slot)
  /-- `ACC R <offset>, <width>` (R76). -/
  | accRead (off width : Nat)
  /-- `ACC W <offset>, <width>, <imm>` (R76). -/
  | accWrite (off width imm : Nat)
  /-- A command mnemonic (R77). -/
  | command (i : Instr)
  /-- `LDKEY k0,...,k7` (R78). -/
  | ldkey (k : Vector Byte 8)
  /-- `LDRAW r0,...,r7` (R78). -/
  | ldraw (r : Vector Byte 8)
  /-- `XF <w>, <n>` (R78). -/
  | xf (w n : Nat)
  /-- `CS <w>, <n>` (R78). -/
  | cs (w n : Nat)
  /-- `CSBEGIN <len>` (R78). -/
  | csbegin (len : Nat)
  /-- `CLR <mask>` (R78). -/
  | clr (mask : Nat)
  deriving DecidableEq, Repr

/-- `<imm32>` is a number below 2^32 (R76). -/
def imm32 (v : Nat) : Option Word := if v < 2 ^ 32 then some (BitVec.ofNat 32 v) else none

/-- `WR <reg>, v`: `HostWrite(off(reg), 4, v)` (R76). -/
def wrEvent (reg : Slot) (v : Word) : HostEvent := .write reg.offset 4 v

/-- A command mnemonic is a CMD write of the command's word; a count outside 1..4 is an assembly error (R77). -/
def commandEvents (i : Instr) : Option (List HostEvent) := (assemble i).map fun w => [wrEvent .cmd w]

/-- A DIN write and then the data command (R78). -/
def dataEvents (w : Nat) (i : Instr) : Option (List HostEvent) :=
  match imm32 w, commandEvents i with
  | some v, some es => some (wrEvent .din v :: es)
  | _, _ => none

/-- The host accesses a line stands for, in order; none for an assembly error (R76, R77, R78). R76 bounds the value of `WR` only; a
value of `ACC W` that is 2^32 or more is refused too, at every width (DESIGN CHOICE, safe: log entry 11). -/
def expandLine : AsmLine → Option (List HostEvent)
  | .wr reg imm => (imm32 imm).map fun v => [wrEvent reg v]
  | .rd reg => some [.read reg.offset 4]
  | .accRead off width => some [.read off width]
  | .accWrite off width imm => (imm32 imm).map fun v => [.write off width v]
  | .command i => commandEvents i
  | .ldkey k => some [wrEvent .keyLo (bankLo k), wrEvent .keyHi (bankHi k)]
  | .ldraw r => some [wrEvent .rawLo (bankLo r), wrEvent .rawHi (bankHi r)]
  | .xf w n => dataEvents w (.ciphXform n)
  | .cs w n => dataEvents w (.csumFeed n)
  | .csbegin len =>
    match imm32 len, commandEvents .csumInit with
    | some v, some es => some (wrEvent .csLen v :: es)
    | _, _ => none
  | .clr mask => (imm32 mask).map fun v => [wrEvent .status v]

/-- The accesses of a whole program, line by line (R76). -/
def expandLines : List AsmLine → Option (List HostEvent)
  | [] => some []
  | l :: ls =>
    match expandLine l, expandLines ls with
    | some es, some rest => some (es ++ rest)
    | _, _ => none

/-- The slot a name of R50 stands for; names are upper case here (`readLine` makes them so). -/
def slotNamed (name : List Char) : Option Slot :=
  if name = "CMD".toList then some .cmd
  else if name = "STATUS".toList then some .status
  else if name = "DIN".toList then some .din
  else if name = "DOUT".toList then some .dout
  else if name = "KEY_LO".toList then some .keyLo
  else if name = "KEY_HI".toList then some .keyHi
  else if name = "RAW_LO".toList then some .rawLo
  else if name = "RAW_HI".toList then some .rawHi
  else if name = "CTR".toList then some .ctr
  else if name = "LK".toList then some .lk
  else if name = "CS_ACC".toList then some .csAcc
  else if name = "CS_CARRY".toList then some .csCarry
  else if name = "CS_CNT".toList then some .csCnt
  else if name = "CS_LEN".toList then some .csLen
  else if name = "CS_EXP".toList then some .csExp
  else none

/-- The value of a digit, decimal or hexadecimal (upper case). -/
def digitValue (c : Char) : Option Nat :=
  let v := c.toNat
  if 48 ≤ v ∧ v ≤ 57 then some (v - 48) else if 65 ≤ v ∧ v ≤ 70 then some (v - 55) else none

/-- The number that digits of the given base spell, after the value `acc` read so far. -/
def digits (base acc : Nat) : List Char → Option Nat
  | [] => some acc
  | c :: cs =>
    match digitValue c with
    | some d => if d < base then digits base (base * acc + d) cs else none
    | none => none

/-- A number: hexadecimal after `0x`, decimal otherwise (R76). -/
def readNumber : List Char → Option Nat
  | [] => none
  | '0' :: 'X' :: c :: cs => digits 16 0 (c :: cs)
  | c :: cs => digits 10 0 (c :: cs)

/-- A byte operand of LDKEY and LDRAW: two hexadecimal digits, as 95_test_vectors.md writes them (log entry 11). -/
def readByte : List Char → Option Byte
  | [a, b] => (digits 16 0 [a, b]).map (BitVec.ofNat 8)
  | _ => none

/-- The characters that separate operands (log entry 11). -/
def isSeparator (c : Char) : Bool := c = ' ' || c = ',' || c = '\t' || c = '\r'

/-- The words of a line, the separators dropped; `word` is the word being read, backwards. -/
def wordsFrom (word : List Char) : List Char → List (List Char)
  | [] => if word = [] then [] else [word.reverse]
  | c :: cs =>
    if isSeparator c then (if word = [] then wordsFrom [] cs else word.reverse :: wordsFrom [] cs)
    else wordsFrom (c :: word) cs

/-- The words of a line without its comment, in upper case. R76 makes the mnemonics case-insensitive; that slot names, the `R` and `W`
of `ACC`, the mark `0x` and hexadecimal digits are read in any case too is the model's choice (DESIGN CHOICE, safe: log entry 11). -/
def lineWords (line : List Char) : List (List Char) :=
  wordsFrom [] ((line.takeWhile (· ≠ ';')).map Char.toUpper)

/-- The eight byte operands of LDKEY and LDRAW (R78). -/
def readBank (ops : List (List Char)) : Option (Vector Byte 8) :=
  match ops.map readByte with
  | [some a, some b, some c, some d, some e, some f, some g, some h] => some #v[a, b, c, d, e, f, g, h]
  | _ => none

/-- A line whose mnemonic takes no operand (R77). -/
def readPlain (name : List Char) : Option AsmLine :=
  if name = "NOP".toList then some (.command .nop)
  else if name = "CIPH_INIT".toList then some (.command .ciphInit)
  else if name = "KDF_RECOVER".toList then some (.command .kdfRecover)
  else if name = "KEY_HDR".toList then some (.command .keyHdr)
  else if name = "CSUM_INIT".toList then some (.command .csumInit)
  else if name = "SRESET".toList then some (.command .sreset)
  else none

/-- A line whose mnemonic takes one operand (R76, R77, R78). -/
def readUnary (name op : List Char) : Option AsmLine :=
  if name = "RD".toList then (slotNamed op).map AsmLine.rd
  else if name = "CIPH_XFORM".toList then (readNumber op).map fun n => .command (.ciphXform n)
  else if name = "CSUM_FEED".toList then (readNumber op).map fun n => .command (.csumFeed n)
  else if name = "CSBEGIN".toList then (readNumber op).map AsmLine.csbegin
  else if name = "CLR".toList then (readNumber op).map AsmLine.clr
  else none

/-- A line whose mnemonic takes two operands (R76, R78). -/
def readBinary (name op1 op2 : List Char) : Option AsmLine :=
  match readNumber op2 with
  | none => none
  | some v =>
    if name = "WR".toList then (slotNamed op1).map fun reg => .wr reg v
    else if name = "XF".toList then (readNumber op1).map fun w => .xf w v
    else if name = "CS".toList then (readNumber op1).map fun w => .cs w v
    else none

/-- A raw access line, `ACC <R|W> <offset>, <width>[, <imm>]`: a write has a value and a read none (R76, log entry 11). -/
def readAccess (kind : List Char) (ops : List (List Char)) : Option AsmLine :=
  match ops.map readNumber with
  | [some off, some width] => if kind = "R".toList then some (.accRead off width) else none
  | [some off, some width, some imm] => if kind = "W".toList then some (.accWrite off width imm) else none
  | _ => none

/-- The line that the words of a text line spell (R76, R77, R78). -/
def readWords : List (List Char) → Option AsmLine
  | [] => none
  | name :: ops =>
    if name = "LDKEY".toList then (readBank ops).map AsmLine.ldkey
    else if name = "LDRAW".toList then (readBank ops).map AsmLine.ldraw
    else if name = "ACC".toList then
      match ops with
      | [] => none
      | kind :: rest => readAccess kind rest
    else
      match ops with
      | [] => readPlain name
      | [op] => readUnary name op
      | [op1, op2] => readBinary name op1 op2
      | _ => none

/-- The lines of a text, cut at line ends; `line` is the line being read, backwards. -/
def linesFrom (line : List Char) : List Char → List (List Char)
  | [] => [line.reverse]
  | c :: cs => if c = '\n' then line.reverse :: linesFrom [] cs else linesFrom (c :: line) cs

/-- The lines that text lines spell, blank and comment lines dropped; none if one of them is no line of the language. -/
def readLines : List (List Char) → Option (List AsmLine)
  | [] => some []
  | l :: ls =>
    match lineWords l with
    | [] => readLines ls
    | words =>
      match readWords words, readLines ls with
      | some a, some rest => some (a :: rest)
      | _, _ => none

/-- The host accesses that a program's text stands for; none where the assembler refuses it (R76, R77, R78). -/
def assembleText (text : String) : Option (List HostEvent) :=
  match readLines (linesFrom [] text.toList) with
  | some ls => expandLines ls
  | none => none

end Sys2Proof.Machine
end

