-- ==== Sys2Proof/Machine/Platform.lean ====
section
/-! DEFINITION. A platform of several units (R6, R213): each has its own window and its own full state, and nothing is shared. -/

namespace Sys2Proof.Machine

/-- A platform of `n` units (R6, R213). -/
abbrev Platform (n : Nat) := Vector State n

/-- Unit `k` of the platform takes one step and no other unit is touched: instances share no state (R6, R213). -/
def Platform.stepAt {n : Nat} (p : Platform n) (k : Fin n) : Host.Outcome (Platform n) Fault Refusal :=
  match step p[k.val] with
  | .next s => .next (p.set k.val s)
  | .fault f => .fault f
  | .refused r => .refused r

/-- Whether a bus address lies in the window of unit `k`; `base` gives each unit's own `SCK_BASE` (R3, R50, R213). -/
def selects {n : Nat} (base : Fin n → Nat) (addr : Nat) (k : Fin n) : Bool := (windowOffset (base k) addr).isSome

/-- The unit that a bus address selects (R213). Each unit has its own window, so an address in two windows selects no unit, as an
address in none does (DESIGN CHOICE, safe: log entry 5). -/
def unitAt {n : Nat} (base : Fin n → Nat) (addr : Nat) : Option (Fin n) :=
  match (List.finRange n).filter (selects base addr) with
  | [k] => some k
  | _ => none

/-- The host issues an access to unit `k`; no other unit sees it (R213). -/
def Platform.issueAt {n : Nat} (p : Platform n) (k : Fin n) (e : HostEvent) : Platform n := p.set k.val (p[k.val].issue [e])

/-- The host reads at a bus address: the access goes to the unit the address selects; none where it selects no unit (R50, R213). -/
def Platform.busRead {n : Nat} (base : Fin n → Nat) (addr width : Nat) (p : Platform n) : Option (Platform n) :=
  (unitAt base addr).bind fun k => (Sys2Proof.Machine.busRead (base k) addr width).map (p.issueAt k)

/-- The host writes at a bus address: the access goes to the unit the address selects; none where it selects no unit (R50, R213). -/
def Platform.busWrite {n : Nat} (base : Fin n → Nat) (addr width : Nat) (v : Word) (p : Platform n) : Option (Platform n) :=
  (unitAt base addr).bind fun k => (Sys2Proof.Machine.busWrite (base k) addr width v).map (p.issueAt k)

/-- The `SCK_BASE` of each unit of the platform (R3, R213). -/
def platformBase (k : Fin Config.sckInstances) : Nat := Config.sckBase k.val

/-- The platform after reset: `SCK_INSTANCES` units, each at its reset state (R6, R230). -/
def platformReset : Platform Config.sckInstances := Vector.replicate Config.sckInstances State.reset

end Sys2Proof.Machine
end

