-- ==== Sys2Proof/Machine/Reference.lean ====
section
/-! DEFINITION. The source's algorithms as functions of byte sequences (R100, R120, R146), and the host's loops that feed a byte
sequence to the unit (R103, R149). No command uses them: the laws of the spec compare the commands with them. -/

namespace Sys2Proof.Machine

/-- The loop of R100 from byte index `k` on, over the accumulator and the carry. -/
def checksumLoop : Nat → List Byte → Word × Word → Word × Word
  | _, [], st => st
  | k, b :: bs, (acc, carry) =>
    let p := k % 4
    let acc' := if p = 0 then carry + b.setWidth 32 else acc + atLane b p
    checksumLoop (k + 1) bs (acc', if p = 3 then rotl32 acc' 11 else carry)

/-- How many bytes of a range of declared size `size` are read: `size - 1`, and none for size 0 (R100, C5). -/
def foldedCount (size : Nat) : Nat := if size = 0 then 0 else size - 1

/-- The accumulator and the carry at the end of R100's loop. -/
def checksumEnd (data : List Byte) (size : Nat) : Word × Word := checksumLoop 0 (data.take (foldedCount size)) (0, 0)

/-- `checksum_ref(data, size)` of R100. -/
def checksumRef (data : List Byte) (size : Nat) : Word := (checksumEnd data size).1

/-- The loop of R120, `for j in 1..7`, from the previous derived byte `lk`, over the pairs `(SIG[j], raw[j])`. -/
def recoverLoop : Byte → List (Byte × Byte) → List Byte
  | _, [] => []
  | lk, (s, r) :: rest => recoverByte lk (s ^^^ r) :: recoverLoop (s ^^^ r) rest

/-- `recover_key_ref` of R120 as the source's loop over the first eight signature and raw bytes. -/
def recoverKeyRef (raw : Vector Byte 8) : List Byte :=
  (sig[0] ^^^ raw[0]) :: recoverLoop (sig[0] ^^^ raw[0]) ((sig.toList.zip raw.toList).drop 1)

/-- `ks_K(c)` of R146: the keystream byte at counter `c` under the key `K`. -/
def keystream (K : Vector Byte 8) : Nat → Byte
  | 0 => K[0]
  | c + 1 => mod8 ((K[c % 7 + 1]'(by omega)).toNat + (rotl8 (keystream K c)).toNat + (c >>> 6))

/-- The registers after a host write of `w` to DIN (R22). -/
def withDin (w : Word) (s : State) : State := s.withRegs { s.regs with din := w }

/-- The bytes that the words `w` with counts `n` carry, in stream order: lanes `0..n-1` of each (R56, R72). -/
def streamOf (feeds : List (Word × Nat)) : List Byte := feeds.flatMap fun f => (lanes f.1).take f.2

/-- Every count of the sequence is one a command can have (R72). -/
def countsOk (feeds : List (Word × Nat)) : Prop := ∀ f ∈ feeds, countOk f.2

/-- The host's loop `XF w, n` (R78, R149) run by `exec`, with DOUT read back after each command: the output bytes and the state
after them; none if a command is refused. -/
def xformSequence : List (Word × Nat) → State → Option (List Byte × State)
  | [], s => some ([], s)
  | (w, n) :: rest, s =>
    match exec (.ciphXform n) (withDin w s) with
    | .next t => (xformSequence rest t).map fun later => ((lanes t.regs.dout).take n ++ later.1, later.2)
    | .fault _ => none
    | .refused _ => none

/-- The host's loop `CS w, n` (R78, R103) run by `exec`: the state after it; none if a command is refused. -/
def feedSequence : List (Word × Nat) → State → Option State
  | [], s => some s
  | (w, n) :: rest, s =>
    match exec (.csumFeed n) (withDin w s) with
    | .next t => feedSequence rest t
    | .fault _ => none
    | .refused _ => none

end Sys2Proof.Machine
end

