-- ==== Sys2Proof/Safety.lean ====
section
/-! DEFINITION. What counts as a proper use of the unit (R209), the host's duties that bind it (R232, R241), what
the host concludes from it (R107, R205, R240, R242 to R244), and the relations
between registers that the spec's laws state. -/

namespace Sys2Proof.Safety
open Sys2Proof.Machine

/-- R209: the host has used the unit within its interface, `ILL = 0` and `ACCERR = 0`. -/
def interfaceClean (r : Regs) : Bool := !r.ill && !r.accerr

/-- R145: sixteen bytes of the block are processed and none of them differed from the signature. -/
def selfCheckPassed (r : Regs) : Bool := sigdone r && !r.sigerr

/-- R107: the checksum equals the expected one. -/
def checksumMatches (r : Regs) : Bool := cseq r

/-- The two kinds of block, which differ in the key and in what a failed self-check means (R205). -/
inductive BlockKind where
  | header | leaf
  deriving DecidableEq, Repr

/-- The source's error taxonomy (R205). -/
inductive HostError where
  | invalidSignature | checksumMismatch | outOfBounds | invalidKey
  deriving DecidableEq, Repr

/-- R240: the range of `len` bytes at `off` lies in a source of `size` bytes; the host checks it before it reads. -/
def boundsVerdict (off len size : Nat) : Option HostError := if off + len ≤ size then none else some .outOfBounds

/-- R242, R205: what a host that has fed a block's first sixteen bytes concludes; a failed self-check rejects the block. -/
def blockVerdict (k : BlockKind) (r : Regs) : Option HostError :=
  if r.sigerr then
    match k with
    | .header => some .invalidSignature
    | .leaf => some .invalidKey
  else none

/-- R107, R205: what a host that has fed a checksum range concludes. -/
def checksumVerdict (r : Regs) : Option HostError := if checksumMatches r then none else some .checksumMismatch

/-- R243: of a leaf's output the host hands on what follows the sixteen signature bytes. -/
def leafPayload (outs : List Byte) : List Byte := outs.drop 16

/-- R243: of a header's output the host emits the first `dataOffset` bytes. -/
def headerOutput (dataOffset : Nat) (outs : List Byte) : List Byte := outs.take dataOffset

/-- R244: a header's checksum range starts at 0x18 and ends before `dataOffset`. Whether its bytes are the raw or the decrypted ones
the spec does not say (N5); the host passes them here. -/
def headerRange (dataOffset : Nat) (block : List Byte) : List Byte := (block.take dataOffset).drop 0x18

/-- R244: a record entry's checksum range. -/
def entryRange (off size : Nat) (file : List Byte) : List Byte := (file.drop off).take size

/-- R244: the accesses that start the checksum of a range and load its expected value. -/
def startRange (size expected : Word) : List HostEvent :=
  [.write 0x38 4 expected, .write 0x34 4 size, .write 0x00 4 (encode .csumInit)]

/-- The slot that a well-formed host write stores to or clears; none for a read, a reset and an ill-formed write (R53). -/
def slotWritten : HostEvent → Option Slot
  | .write off width _ => wellFormedSlot .write off width
  | .read _ _ => none
  | .hardReset => none

/-- The command that a host event runs, if it runs one: a well-formed write of a legal word to CMD (R70). -/
def commandOf : HostEvent → Option Instr
  | .write off width v => if wellFormedSlot .write off width = some .cmd then (decode v).toOption else none
  | .read _ _ => none
  | .hardReset => none

/-- The event changes neither the key nor, by a host write, the cipher state: no write to CTR, LK, KEY_LO or KEY_HI and no
KDF_RECOVER or KEY_HDR (R151, R152). -/
def keepsKeystream (e : HostEvent) : Bool :=
  slotWritten e ∉ [some .ctr, some .lk, some .keyLo, some .keyHi] ∧ commandOf e ∉ [some .kdfRecover, some .keyHdr]

/-- The continuity duty of R241 for an event between the first and the last byte of a block: besides `keepsKeystream`, no
CIPH_INIT, no SRESET and no reset. -/
def keepsBlock (e : HostEvent) : Bool :=
  keepsKeystream e ∧ commandOf e ∉ [some .ciphInit, some .sreset] ∧ e ≠ .hardReset

/-- The event is no host write to CS_CNT or CS_LEN (R31). -/
def keepsCount (e : HostEvent) : Bool := slotWritten e ∉ [some .csCnt, some .csLen]

/-- The event is no host write to CS_ACC, CS_CARRY or CS_CNT (R29, R30, R31). -/
def keepsFold (e : HostEvent) : Bool := slotWritten e ∉ [some .csAcc, some .csCarry, some .csCnt]

/-- R146: `LK = ks_K(CTR)` whenever `1 <= CTR`. -/
def keystreamSynced (r : Regs) : Prop := r.ctr ≠ 0 → r.lk = keystream r.key r.ctr.toNat

/-- R31: CS_CNT never exceeds `CS_LEN - 1` (0 where CS_LEN is 0). -/
def countBounded (r : Regs) : Prop := r.csCnt.toNat ≤ r.csLen.toNat - 1

/-- R30: at the end of a complete group CS_CARRY is `rotl32(CS_ACC, 11)`, and before the first byte both are 0. -/
def carryFollowsGroups (r : Regs) : Prop :=
  (r.csCnt.toNat = 0 → r.csAcc = 0 ∧ r.csCarry = 0) ∧
    (r.csCnt.toNat % 4 = 0 → r.csCarry = rotl32 r.csAcc 11)

/-- What the host has done so far of R232's preparations. R232 asks for a write of CS_EXP only of a host that uses CSEQ, and does not
say what using it is (program L3-3 writes CS_EXP after the feed), so no field tracks CS_EXP (DESIGN CHOICE, unsafe: log entry 16). -/
structure Prepared where
  keyLo : Bool
  keyHi : Bool
  rawLo : Bool
  rawHi : Bool
  blockStarted : Bool
  lengthSet : Bool
  checksumStarted : Bool
  deriving DecidableEq, Repr

/-- After a reset nothing is prepared. -/
def Prepared.nothing : Prepared := ⟨false, false, false, false, false, false, false⟩

/-- How a command changes what is prepared (R232; log entry 16). -/
def Prepared.afterCommand (p : Prepared) : Instr → Prepared
  | .nop => p
  | .ciphInit => { p with blockStarted := true }
  | .ciphXform _ => p
  | .kdfRecover => { p with keyLo := p.rawLo && p.rawHi, keyHi := p.rawLo && p.rawHi }
  | .keyHdr => { p with keyLo := true, keyHi := true }
  | .csumInit => { p with checksumStarted := p.lengthSet }
  | .csumFeed _ => p
  | .sreset => Prepared.nothing

/-- How a host event changes what is prepared (R232; log entry 16). -/
def Prepared.after (p : Prepared) (e : HostEvent) : Prepared :=
  match commandOf e with
  | some i => p.afterCommand i
  | none =>
    if e = .hardReset then Prepared.nothing
    else
      match slotWritten e with
      | some .keyLo => { p with keyLo := true }
      | some .keyHi => { p with keyHi := true }
      | some .rawLo => { p with rawLo := true }
      | some .rawHi => { p with rawHi := true }
      | some .csLen => { p with lengthSet := true, checksumStarted := false }
      | _ => p

/-- Whether the event may come now: a cipher byte needs a key and CIPH_INIT, a checksum byte CS_LEN and then CSUM_INIT (R232). -/
def Prepared.allows (p : Prepared) (e : HostEvent) : Bool :=
  match commandOf e with
  | some (.ciphXform _) => p.keyLo && p.keyHi && p.blockStarted
  | some (.csumFeed _) => p.lengthSet && p.checksumStarted
  | _ => true

/-- The host keeps the boot duties of R232 along a sequence of events, the CS_EXP duty apart (log entry 16). The unit checks none of
this. -/
def preparedFor : Prepared → List HostEvent → Bool
  | _, [] => true
  | p, e :: es => p.allows e && preparedFor (p.after e) es

end Sys2Proof.Safety
end

