-- ==== Sys2Proof/Certificates/Slice0/Obligations.lean ====
section
/-! DEFINITION. The statements for the provers. Each formalises rules of spec/; OBLIGATIONS.json lists them. -/

open Sys2Proof Sys2Proof.Machine Sys2Proof.Safety

/-! ### Command words -/

/-- R74: the fourteen legal words and the commands they are. -/
def Obligations.LegalWordsDecodeAsListed : Prop :=
  decode 0x00000000 = .ok .nop ∧
  decode 0x00000001 = .ok .ciphInit ∧
  decode 0x00000002 = .ok (.ciphXform 1) ∧ decode 0x00000012 = .ok (.ciphXform 2) ∧
  decode 0x00000022 = .ok (.ciphXform 3) ∧ decode 0x00000032 = .ok (.ciphXform 4) ∧
  decode 0x00000003 = .ok .kdfRecover ∧
  decode 0x00000004 = .ok .keyHdr ∧
  decode 0x00000005 = .ok .csumInit ∧
  decode 0x00000006 = .ok (.csumFeed 1) ∧ decode 0x00000016 = .ok (.csumFeed 2) ∧
  decode 0x00000026 = .ok (.csumFeed 3) ∧ decode 0x00000036 = .ok (.csumFeed 4) ∧
  decode 0x00000007 = .ok .sreset

/-- R72, R73, R74: decoding the encoding of a well-formed command gives it back, with its byte count. -/
def Obligations.DecodeOfEncodeIsTheCommand : Prop :=
  ∀ i : Instr, i.wf = true → decode (encode i) = .ok i

/-- R73, R74: a legal word is the encoding of the one command it decodes to, which is well formed. -/
def Obligations.LegalWordIsItsEncoding : Prop :=
  ∀ (w : Word) (i : Instr), decode w = .ok i → i.wf = true ∧ encode i = w

/-- R73: the opcode map, read from the word as a number, and exactly fourteen legal words. -/
def Obligations.DecodeFollowsOpcodeMap : Prop :=
  (∀ w : Word,
    let op := w.toNat % 16
    let nm1 := w.toNat / 16 % 4
    let fixed (i : Instr) : Except Illegal Instr := if nm1 = 0 then .ok i else .error .byteCount
    (64 ≤ w.toNat → decode w = .error .reservedBits) ∧
    (w.toNat < 64 →
      (op = 0 → decode w = fixed .nop) ∧
      (op = 1 → decode w = fixed .ciphInit) ∧
      (op = 2 → decode w = .ok (.ciphXform (nm1 + 1))) ∧
      (op = 3 → decode w = fixed .kdfRecover) ∧
      (op = 4 → decode w = fixed .keyHdr) ∧
      (op = 5 → decode w = fixed .csumInit) ∧
      (op = 6 → decode w = .ok (.csumFeed (nm1 + 1))) ∧
      (op = 7 → decode w = fixed .sreset) ∧
      (8 ≤ op → decode w = .error .opcode))) ∧
  legalWords.length = 14 ∧ legalWords.Nodup ∧
  ∀ w : Word, (∃ i, decode w = .ok i) ↔ w ∈ legalWords

/-- R75: the illegal words are those with a reserved bit set, with a byte count on a command that takes none, or with an opcode
in 0x8..0xF; writing one raises IllegalCommand and changes nothing else; NOP is the only command that does nothing. -/
def Obligations.IllegalWordsOnlyRaiseIllegalCommand : Prop :=
  (∀ w : Word, (∃ e, decode w = .error e) ↔
    (w.toNat / 64 ≠ 0 ∨ 8 ≤ w.toNat % 16 ∨
      (w.toNat / 16 % 4 ≠ 0 ∧ w.toNat % 16 ≠ 2 ∧ w.toNat % 16 ≠ 6))) ∧
  (∀ (s : State) (w : Word) (e : Illegal) (rest : List HostEvent),
    s.pending = .write 0x00 4 w :: rest → decode w = .error e →
    step s = .next ⟨{ s.regs with ill := true }, rest, none⟩) ∧
  (∀ i : Instr, (∀ s : State, exec i s = .next s) ↔ i = .nop)

/-- R72, R77 and log entry 7 (the refusal is the model's choice): a count outside 1..4 is no command. The assembler refuses it,
and so does `exec`. -/
def Obligations.CountOutsideOneToFourIsRefused : Prop :=
  ∀ (n : Nat) (s : State), ¬ (1 ≤ n ∧ n ≤ 4) →
    assemble (.ciphXform n) = none ∧ assemble (.csumFeed n) = none ∧
    exec (.ciphXform n) s = .refused (.countOutOfRange n) ∧ exec (.csumFeed n) s = .refused (.countOutOfRange n)

/-! ### Host accesses -/

/-- R70, R200: a well-formed write to CMD decodes its word; a legal word runs its command to completion within the write, an
illegal one sets ILL and changes nothing else; a read of CMD returns 0 and runs nothing. -/
def Obligations.CommandWriteRunsDecodedCommand : Prop :=
  ∀ (s : State) (rest : List HostEvent),
    (∀ (w : Word) (i : Instr), s.pending = .write 0x00 4 w :: rest → decode w = .ok i →
      i.wf = true ∧ step s = exec i ⟨s.regs, rest, none⟩) ∧
    (∀ (w : Word) (e : Illegal), s.pending = .write 0x00 4 w :: rest → decode w = .error e →
      step s = .next ⟨{ s.regs with ill := true }, rest, none⟩) ∧
    (s.pending = .read 0x00 4 :: rest → step s = .next ⟨s.regs, rest, some 0⟩)

/-- R54, R201: an ill-formed access in the window sets ACCERR and has no other effect; a read returns 0 and a write runs no
command. The access is well formed by R53 when its width is 4, its offset is a multiple of 4 in 0x00..0x38, and it is no write to
DOUT. -/
def Obligations.IllFormedAccessOnlySetsAccerr : Prop :=
  ∀ (s : State) (off width : Nat) (v : Word) (rest : List HostEvent), off < 64 →
    (s.pending = .read off width :: rest → ¬ (width = 4 ∧ off % 4 = 0 ∧ off ≤ 0x38) →
      step s = .next ⟨{ s.regs with accerr := true }, rest, some 0⟩) ∧
    (s.pending = .write off width v :: rest → ¬ (width = 4 ∧ off % 4 = 0 ∧ off ≤ 0x38 ∧ off ≠ 0x0C) →
      step s = .next ⟨{ s.regs with accerr := true }, rest, none⟩)

/-- R164, R36: what a well-formed read of each of the fifteen slots returns, with no other effect, and what an ill-formed one
does. -/
def Obligations.HostReadReturnsSlotValue : Prop :=
  ∀ (s : State) (rest : List HostEvent),
    let r := s.regs
    let pack (a b c d : Byte) : Word :=
      BitVec.ofNat 32 (a.toNat + b.toNat * 2 ^ 8 + c.toNat * 2 ^ 16 + d.toNat * 2 ^ 24)
    let status : Word :=
      BitVec.ofNat 32 (r.ill.toNat + 2 * r.accerr.toNat + 4 * r.sigerr.toNat + 8 * (decide (16 ≤ r.ctr.toNat)).toNat +
        16 * (decide (r.csAcc = r.csExp)).toNat)
    (∀ (off : Nat) (v : Word),
      (off, v) ∈ ([(0x00, 0), (0x04, status), (0x08, r.din), (0x0C, r.dout),
          (0x10, pack r.key[0] r.key[1] r.key[2] r.key[3]), (0x14, pack r.key[4] r.key[5] r.key[6] r.key[7]),
          (0x18, pack r.raw[0] r.raw[1] r.raw[2] r.raw[3]), (0x1C, pack r.raw[4] r.raw[5] r.raw[6] r.raw[7]),
          (0x20, r.ctr), (0x24, BitVec.ofNat 32 r.lk.toNat), (0x28, r.csAcc), (0x2C, r.csCarry), (0x30, r.csCnt),
          (0x34, r.csLen), (0x38, r.csExp)] : List (Nat × Word)) →
      s.pending = .read off 4 :: rest → step s = .next ⟨r, rest, some v⟩) ∧
    (∀ off width : Nat, off < 64 → ¬ (width = 4 ∧ off % 4 = 0 ∧ off ≤ 0x38) →
      s.pending = .read off width :: rest → step s = .next ⟨{ r with accerr := true }, rest, some 0⟩)

/-- R163, R35: what a well-formed write of `v` to each slot does, the command of a CMD write included, and what an ill-formed one
does. -/
def Obligations.HostWriteStoresSlot : Prop :=
  ∀ (s : State) (v : Word) (rest : List HostEvent),
    let r := s.regs
    let b (i : Nat) : Byte := v.extractLsb' (8 * i) 8
    (∀ (off : Nat) (r' : Regs),
      (off, r') ∈ ([
          (0x04, { r with
            ill := r.ill && !v.getLsbD 0
            accerr := r.accerr && !v.getLsbD 1
            sigerr := r.sigerr && !v.getLsbD 2 }),
          (0x08, { r with din := v }),
          (0x10, { r with key := #v[b 0, b 1, b 2, b 3, r.key[4], r.key[5], r.key[6], r.key[7]] }),
          (0x14, { r with key := #v[r.key[0], r.key[1], r.key[2], r.key[3], b 0, b 1, b 2, b 3] }),
          (0x18, { r with raw := #v[b 0, b 1, b 2, b 3, r.raw[4], r.raw[5], r.raw[6], r.raw[7]] }),
          (0x1C, { r with raw := #v[r.raw[0], r.raw[1], r.raw[2], r.raw[3], b 0, b 1, b 2, b 3] }),
          (0x20, { r with ctr := v }),
          (0x24, { r with lk := b 0 }),
          (0x28, { r with csAcc := v }),
          (0x2C, { r with csCarry := v }),
          (0x30, { r with csCnt := v }),
          (0x34, { r with csLen := v }),
          (0x38, { r with csExp := v })] : List (Nat × Regs)) →
      s.pending = .write off 4 v :: rest → step s = .next ⟨r', rest, none⟩) ∧
    (s.pending = .write 0x00 4 v :: rest →
      match decode v with
      | .ok i => step s = exec i ⟨r, rest, none⟩
      | .error _ => step s = .next ⟨{ r with ill := true }, rest, none⟩) ∧
    (∀ off width : Nat, off < 64 → ¬ (width = 4 ∧ off % 4 = 0 ∧ off ≤ 0x38 ∧ off ≠ 0x0C) →
      s.pending = .write off width v :: rest → step s = .next ⟨{ r with accerr := true }, rest, none⟩)

/-- R22, R24, R26 to R33, R62: a read of a read-write slot returns the word the write before it stored, and for LK its low byte. -/
def Obligations.ReadReturnsLastWrite : Prop :=
  ∀ (s : State) (off : Nat) (v : Word) (rest : List HostEvent),
    off ∈ [0x08, 0x10, 0x14, 0x18, 0x1C, 0x20, 0x24, 0x28, 0x2C, 0x30, 0x34, 0x38] →
    s.pending = .write off 4 v :: .read off 4 :: rest →
    ∃ t u : State, step s = .next t ∧ step t = .next u ∧ u.regs = t.regs ∧ u.pending = rest ∧
      u.reply = some (if off = 0x24 then BitVec.ofNat 32 (v.toNat % 256) else v)

/-- R60: reads, repeated writes of one value to a slot other than CMD, and repeated write-one-to-clears are idempotent; a CMD
write is not: a repeated CIPH_XFORM advances the counter twice.
The spec marks R60 as its own inference. -/
def Obligations.RepeatedAccessIsIdempotentButCommandsAreNot : Prop :=
  (∀ (s : State) (e : HostEvent) (rest : List HostEvent),
    ((∃ off, off % 4 = 0 ∧ off ≤ 0x38 ∧ e = .read off 4) ∨
      (∃ off v, off % 4 = 0 ∧ off ≤ 0x38 ∧ off ≠ 0x00 ∧ off ≠ 0x0C ∧ e = .write off 4 v)) →
    s.pending = e :: e :: rest →
    ∃ t u : State, step s = .next t ∧ step t = .next u ∧ u.regs = t.regs ∧ u.reply = t.reply) ∧
  (∀ (s : State) (n : Nat) (rest : List HostEvent), countOk n →
    s.pending = .write 0x00 4 (encode (.ciphXform n)) :: .write 0x00 4 (encode (.ciphXform n)) :: rest →
    ∃ t u : State, step s = .next t ∧ step t = .next u ∧
      t.regs.ctr = s.regs.ctr + BitVec.ofNat 32 n ∧ u.regs.ctr = s.regs.ctr + BitVec.ofNat 32 (2 * n))

/-- R214, R164: every field of the state can be read back through the window: two units that read alike at every slot are alike. -/
def Obligations.WindowShowsEveryField : Prop :=
  ∀ r r' : Regs, (∀ off, (hostRead off 4 r).1 = (hostRead off 4 r').1) → r = r'

/-- R255, R62: every access in the window completes in one step, and takes exactly the oldest pending event; with none pending
the unit stays as it is. The model's choices here are the idle step (log entry 2), and that the hardware reset is a host event that
takes one step and keeps the events after it (log entry 8).
The spec marks R255 as its own inference. -/
def Obligations.EveryAccessCompletesInOneStep : Prop :=
  (∀ (s : State) (e : HostEvent) (rest : List HostEvent), s.pending = e :: rest →
    (match e with
      | .read off _ => off < 64
      | .write off _ _ => off < 64
      | .hardReset => True) →
    ∃ t : State, step s = .next t ∧ t.pending = rest) ∧
  (∀ s : State, s.pending = [] → step s = .next s)

/-- R50 and log entry 3 (the refusal is the model's choice): a bus address selects the unit exactly when it lies in the 64 bytes
from `SCK_BASE`, and an access beyond the window is refused. -/
def Obligations.OnlyWindowAddressesSelectTheUnit : Prop :=
  (∀ base addr off : Nat, windowOffset base addr = some off ↔ (addr = base + off ∧ off < 64)) ∧
  (∀ (s : State) (off width : Nat) (v : Word) (rest : List HostEvent), 64 ≤ off →
    (s.pending = .read off width :: rest → step s = .refused (.outsideWindow off)) ∧
    (s.pending = .write off width v :: rest → step s = .refused (.outsideWindow off)))

/-- R34, R208: a set flag stays set until one of its clearing events: its STATUS bit written 1, SRESET, a reset, and for SIGERR
CIPH_INIT. -/
def Obligations.FlagsStaySetUntilCleared : Prop :=
  ∀ (s t : State) (e : HostEvent) (rest : List HostEvent), s.pending = e :: rest → step s = .next t →
    e ≠ .hardReset → e ≠ .write 0x00 4 0x00000007 →
    (s.regs.ill = true → (∀ v, e = .write 0x04 4 v → v.getLsbD 0 = false) → t.regs.ill = true) ∧
    (s.regs.accerr = true → (∀ v, e = .write 0x04 4 v → v.getLsbD 1 = false) → t.regs.accerr = true) ∧
    (s.regs.sigerr = true → (∀ v, e = .write 0x04 4 v → v.getLsbD 2 = false) → e ≠ .write 0x00 4 0x00000001 →
      t.regs.sigerr = true)

/-- R34, R204: a flag is set by its own cause only: ILL by an illegal word in a well-formed CMD write, ACCERR by an ill-formed
access, SIGERR by CIPH_XFORM. -/
def Obligations.FlagsAreSetByTheirCauseOnly : Prop :=
  ∀ (s t : State) (e : HostEvent) (rest : List HostEvent), s.pending = e :: rest → step s = .next t →
    (s.regs.ill = false → t.regs.ill = true → ∃ w x, e = .write 0x00 4 w ∧ decode w = .error x) ∧
    (s.regs.accerr = false → t.regs.accerr = true →
      (∃ off width, e = .read off width ∧ ¬ (width = 4 ∧ off % 4 = 0 ∧ off ≤ 0x38)) ∨
      (∃ off width v, e = .write off width v ∧ ¬ (width = 4 ∧ off % 4 = 0 ∧ off ≤ 0x38 ∧ off ≠ 0x0C))) ∧
    (s.regs.sigerr = false → t.regs.sigerr = true → ∃ w n, e = .write 0x00 4 w ∧ decode w = .ok (.ciphXform n))

/-! ### Results of the commands: each completes, and everything it does not name is unchanged -/

/-- R160: NOP is the word 0, and every other word of its opcode is illegal; it completes and changes nothing. -/
def Obligations.NopLeavesEverything : Prop :=
  encode .nop = 0x00000000 ∧
  (∀ w : Word, w.toNat % 16 = 0x0 → w ≠ 0x00000000 → ∃ e, decode w = .error e) ∧
  ∀ s : State, exec .nop s = .next s

/-- R140: CIPH_INIT completes; it clears CTR, LK and SIGERR and changes nothing else; SIGDONE then reads 0. -/
def Obligations.CiphInitStartsABlock : Prop :=
  encode .ciphInit = 0x00000001 ∧
  ∀ s : State, ∃ t : State, exec .ciphInit s = .next t ∧
    t = { s with regs := { s.regs with ctr := 0, lk := 0, sigerr := false } } ∧
    (readSlot .status t.regs).getLsbD 3 = false

/-- R162: SRESET is the word 7, and every other word of its opcode is illegal; it completes, every field takes its reset value, and
STATUS then reads 0x00000010. That the pending events and the last reply stay is the model's choice (log entry 1). -/
def Obligations.SresetResetsEveryField : Prop :=
  encode .sreset = 0x00000007 ∧
  (∀ w : Word, w.toNat % 16 = 0x7 → w ≠ 0x00000007 → ∃ e, decode w = .error e) ∧
  ∀ s : State, ∃ t : State, exec .sreset s = .next t ∧
    t = { s with regs :=
      { din := 0, dout := 0, key := Vector.replicate 8 0, raw := Vector.replicate 8 0, ctr := 0, lk := 0, sigerr := false,
        csAcc := 0, csCarry := 0, csCnt := 0, csLen := 0, csExp := 0, ill := false, accerr := false } } ∧
    readSlot .status t.regs = 0x00000010

/-- R101: CSUM_INIT is the word 5, and every other word of its opcode is illegal; it completes, it clears CS_ACC, CS_CARRY and CS_CNT and changes nothing else; CSEQ then reads `CS_EXP == 0`. -/
def Obligations.CsumInitStartsAChecksum : Prop :=
  encode .csumInit = 0x00000005 ∧
  (∀ w : Word, w.toNat % 16 = 0x5 → w ≠ 0x00000005 → ∃ e, decode w = .error e) ∧
  ∀ s : State, ∃ t : State, exec .csumInit s = .next t ∧
    t = { s with regs := { s.regs with csAcc := 0, csCarry := 0, csCnt := 0 } } ∧
    (readSlot .status t.regs).getLsbD 4 = decide (s.regs.csExp = 0)

/-- R123: KEY_HDR completes; it loads HEADER_KEY, whatever its value, into KEY and changes nothing else. -/
def Obligations.KeyHdrLoadsTheHeaderKey : Prop :=
  encode .keyHdr = 0x00000004 ∧
  ∀ s : State, exec .keyHdr s = .next { s with regs := { s.regs with key := Config.headerKey } }

/-- R122: KDF_RECOVER completes; KEY gets the key that the loop of R120 recovers from RAW, and nothing else changes. -/
def Obligations.KdfRecoverLoadsTheRecoveredKey : Prop :=
  encode .kdfRecover = 0x00000003 ∧
  ∀ s : State, ∃ k : Vector Byte 8, k.toList = recoverKeyRef s.regs.raw ∧
    exec .kdfRecover s = .next { s with regs := { s.regs with key := k } }

/-- R141, R142, R143, R144: CIPH_XFORM completes for every `N` in 1..4. `lk i` is the register before byte `i` and `out i` the
output of byte `i`; DOUT, CTR, LK and SIGERR change as given and nothing else does. -/
def Obligations.CiphXformTransformsLanesInOrder : Prop :=
  ∀ (s : State) (n : Nat), 1 ≤ n ∧ n ≤ 4 →
    let r := s.regs
    let c (i : Nat) : Word := r.ctr + BitVec.ofNat 32 i
    encode (.ciphXform n) = BitVec.ofNat 32 (0x2 ||| ((n - 1) <<< 4)) ∧
    ∃ lk used out : Nat → Byte,
      lk 0 = r.lk ∧
      (∀ i, i < n →
        used i = (if c i = 0 then r.key[0] else lk i) ∧
        out i = r.din.extractLsb' (8 * i) 8 ^^^ used i ∧
        lk (i + 1) =
          mod8 ((r.key[(c i).toNat % 7 + 1]'(by omega)).toNat + (rotl8 (used i)).toNat + ((c i).toNat >>> 6))) ∧
      (∀ i, n ≤ i → out i = 0) ∧
      ∃ sigerr : Bool,
        (sigerr = true ↔
          (r.sigerr = true ∨ ∃ i, i < n ∧ ∃ h : (c i).toNat < 16, out i ≠ sig[(c i).toNat])) ∧
        exec (.ciphXform n) s =
          .next { s with regs := { r with
            dout := le32 (out 0) (out 1) (out 2) (out 3)
            ctr := c n
            lk := lk n
            sigerr := sigerr } }

/-- R102: CSUM_FEED completes for every `N` in 1..4. `acc i`, `carry i` and `cnt i` are the registers before byte `i`; CS_ACC,
CS_CARRY and CS_CNT change as given and nothing else does. -/
def Obligations.CsumFeedFoldsLanesInOrder : Prop :=
  ∀ (s : State) (n : Nat), 1 ≤ n ∧ n ≤ 4 →
    let r := s.regs
    let b (i : Nat) : Nat := (r.din.extractLsb' (8 * i) 8).toNat
    encode (.csumFeed n) = BitVec.ofNat 32 (0x6 ||| ((n - 1) <<< 4)) ∧
    ∃ acc carry cnt : Nat → Word,
      acc 0 = r.csAcc ∧ carry 0 = r.csCarry ∧ cnt 0 = r.csCnt ∧
      (∀ i, i < n →
        let p := (cnt i).toNat % 4
        if r.csLen.toNat ≠ 0 ∧ (cnt i).toNat < r.csLen.toNat - 1 then
          acc (i + 1) =
            (if p = 0 then mod32 ((carry i).toNat + b i) else mod32 ((acc i).toNat + (b i <<< (8 * p) : Nat))) ∧
          carry (i + 1) = (if p = 3 then rotl32 (acc (i + 1)) 11 else carry i) ∧
          (cnt (i + 1)).toNat = (cnt i).toNat + 1
        else acc (i + 1) = acc i ∧ carry (i + 1) = carry i ∧ cnt (i + 1) = cnt i) ∧
      exec (.csumFeed n) s =
        .next { s with regs := { r with csAcc := acc n, csCarry := carry n, csCnt := cnt n } }

/-! ### What commands change and read -/

/-- R22 to R24, R26 to R34, R204, D29: which command may change which register. Nothing but SRESET changes DIN, RAW, CS_LEN, CS_EXP,
ILL or ACCERR. That no command touches the pending events or the last reply is the model's choice (log entry 1). -/
def Obligations.CommandsWriteOnlyTheirRegisters : Prop :=
  ∀ (i : Instr) (s t : State), exec i s = .next t →
    t.pending = s.pending ∧ t.reply = s.reply ∧
    (i = .sreset ∨
      (t.regs.din = s.regs.din ∧ t.regs.raw = s.regs.raw ∧ t.regs.csLen = s.regs.csLen ∧ t.regs.csExp = s.regs.csExp ∧
        t.regs.ill = s.regs.ill ∧ t.regs.accerr = s.regs.accerr ∧
        ((∃ n, i = .ciphXform n) ∨ t.regs.dout = s.regs.dout) ∧
        (i = .kdfRecover ∨ i = .keyHdr ∨ t.regs.key = s.regs.key) ∧
        (i = .ciphInit ∨ (∃ n, i = .ciphXform n) ∨
          (t.regs.ctr = s.regs.ctr ∧ t.regs.lk = s.regs.lk ∧ t.regs.sigerr = s.regs.sigerr)) ∧
        (i = .csumInit ∨ (∃ n, i = .csumFeed n) ∨
          (t.regs.csAcc = s.regs.csAcc ∧ t.regs.csCarry = s.regs.csCarry ∧ t.regs.csCnt = s.regs.csCnt))))

/-- R72: a data command reads lanes `0..N-1` of DIN and no other: with two DIN words alike in those lanes the results differ in
DIN only. -/
def Obligations.LanesBeyondTheCountAreNotRead : Prop :=
  ∀ (s : State) (n : Nat) (w w' : Word), countOk n → (∀ i, i < n → lane w i = lane w' i) →
    (∃ t, exec (.ciphXform n) (withDin w s) = .next t ∧ exec (.ciphXform n) (withDin w' s) = .next (withDin w' t)) ∧
    (∃ t, exec (.csumFeed n) (withDin w s) = .next t ∧ exec (.csumFeed n) (withDin w' s) = .next (withDin w' t))

/-- R252: the cipher and the checksum may take the same DIN in either order, with the same end state.
The spec marks R252 as its own inference. -/
def Obligations.CipherAndChecksumCommute : Prop :=
  ∀ (s : State) (n m : Nat), countOk n → countOk m →
    ∃ t t' u : State, exec (.ciphXform n) s = .next t ∧ exec (.csumFeed m) t = .next u ∧
      exec (.csumFeed m) s = .next t' ∧ exec (.ciphXform n) t' = .next u

/-- R232: loading the key and CIPH_INIT commute.
The spec marks R232 as its own inference. -/
def Obligations.KeyLoadAndBlockStartCommute : Prop :=
  ∀ (s : State) (i : Instr), i = .kdfRecover ∨ i = .keyHdr →
    ∃ t t' u : State, exec i s = .next t ∧ exec .ciphInit t = .next u ∧
      exec .ciphInit s = .next t' ∧ exec i t' = .next u

/-! ### Checksum laws -/

/-- R103: feeding a range from CSUM_INIT, split in any way, gives the source's checksum, its count, and the rotated accumulator of
the last complete group.
The spec marks R103 as its own inference. -/
def Obligations.FeedingARangeGivesTheSourceChecksum : Prop :=
  ∀ (s s0 : State) (feeds : List (Word × Nat)) (data : List Byte),
    let size := s.regs.csLen.toNat
    exec .csumInit s = .next s0 → countsOk feeds → size ≤ data.length →
    size - 1 ≤ (streamOf feeds).length → (streamOf feeds).take (size - 1) = data.take (size - 1) →
    ∃ t : State, feedSequence feeds s0 = some t ∧
      t.regs.csAcc = checksumRef data size ∧
      t.regs.csCnt.toNat = max size 1 - 1 ∧
      t.regs.csCarry = (if size - 1 < 4 then 0 else rotl32 (checksumRef data ((size - 1) / 4 * 4 + 1)) 11)

/-- R104: changing the last byte of the declared range never changes the checksum.
The spec marks R104 as its own inference. -/
def Obligations.LastByteOfRangeIsExcluded : Prop :=
  ∀ (s s0 t t' : State) (feeds feeds' : List (Word × Nat)) (b : Byte),
    exec .csumInit s = .next s0 → countsOk feeds → countsOk feeds' → s.regs.csLen.toNat ≠ 0 →
    streamOf feeds' = (streamOf feeds).set (s.regs.csLen.toNat - 1) b →
    feedSequence feeds s0 = some t → feedSequence feeds' s0 = some t' → t'.regs.csAcc = t.regs.csAcc

/-- R105: the checksum registers depend on CS_LEN and the bytes only: not on how the bytes are split into commands, nor on any
other state of the unit.
The spec marks R105 as its own inference. -/
def Obligations.ChecksumIgnoresSplitAndOtherState : Prop :=
  ∀ (s s' s0 s0' : State) (feeds feeds' : List (Word × Nat)),
    s.regs.csLen = s'.regs.csLen → exec .csumInit s = .next s0 → exec .csumInit s' = .next s0' →
    countsOk feeds → countsOk feeds' → streamOf feeds = streamOf feeds' →
    ∃ t t' : State, feedSequence feeds s0 = some t ∧ feedSequence feeds' s0' = some t' ∧
      t.regs.csAcc = t'.regs.csAcc ∧ t.regs.csCarry = t'.regs.csCarry ∧ t.regs.csCnt = t'.regs.csCnt

/-- R106: at a group boundary, with room for `N` bytes, CSUM_FEED adds the little-endian word of the bytes to the carry, and a
complete group sets the carry to the rotated sum.
The spec marks R106 as its own inference. -/
def Obligations.GroupAddsItsLittleEndianWord : Prop :=
  ∀ (s : State) (n : Nat), countOk n → s.regs.csCnt.toNat % 4 = 0 → s.regs.csCnt.toNat + n < s.regs.csLen.toNat →
    ∃ t : State, exec (.csumFeed n) s = .next t ∧
      t.regs.csAcc = s.regs.csCarry + BitVec.ofNat 32 (s.regs.din.toNat % 2 ^ (8 * n)) ∧
      t.regs.csCarry = (if n = 4 then rotl32 (s.regs.csCarry + s.regs.din) 11 else s.regs.csCarry) ∧
      t.regs.csCnt.toNat = s.regs.csCnt.toNat + n

/-! ### Key recovery laws -/

/-- R121: the loop of R120 gives the simplified form, for every input.
The spec marks R121 as its own inference. -/
def Obligations.RecoveryHasSimplifiedForm : Prop :=
  ∀ raw : Vector Byte 8,
    let x (j : Fin 8) : Byte := sig[j.val] ^^^ raw[j.val]
    recoverKeyRef raw =
      x 0 :: [(1, 0), (2, 1), (3, 2), (4, 3), (5, 4), (6, 5), (7, 6)].map
        fun (p : Fin 8 × Fin 8) => mod8 ((x p.1).toNat - (rotl8 (x p.2)).toNat)

/-- R124: from the signature encrypted under `K`, KDF_RECOVER recovers `K`.
The spec marks R124 as its own inference. -/
def Obligations.RecoveryInvertsTheKeystream : Prop :=
  ∀ (K : Vector Byte 8) (s : State),
    (∀ c : Fin 8, s.regs.raw[c.val] = sig[c.val] ^^^ keystream K c.val) →
    exec .kdfRecover s = .next { s with regs := { s.regs with key := K } }

/-- R124, end to end: encrypt the first eight signature bytes by the cipher itself under any key, put the output in RAW, run
KDF_RECOVER on any unit: the key comes back. The two words are the signature's first eight bytes by the byte values of R25, which the
spec marks as general knowledge (log entry 6, PRESUMED).
The spec marks R124 as its own inference. -/
def Obligations.EncryptedSignatureGivesItsKeyBack : Prop :=
  ∀ (s s0 t u : State) (outs : List Byte),
    exec .ciphInit s = .next s0 →
    xformSequence [(0x594B4E4F, 4), (0x6E45204F, 4)] s0 = some (outs, t) →
    u.regs.raw.toList = outs →
    exec .kdfRecover u = .next { u with regs := { u.regs with key := s.regs.key } }

/-- R127: from the first two words of a header that decrypts under the header key to the signature's first eight bytes, KDF_RECOVER
recovers the header key, whatever its value.
The spec marks R127 as its own inference. -/
def Obligations.HeaderKeyIsRecoveredFromAHeader : Prop :=
  ∀ (s a s0 t u : State) (w1 w2 : Word),
    exec .keyHdr s = .next a → exec .ciphInit a = .next s0 →
    xformSequence [(w1, 4), (w2, 4)] s0 = some (sig.toList.take 8, t) →
    u.regs.raw.toList = lanes w1 ++ lanes w2 →
    exec .kdfRecover u = .next { u with regs := { u.regs with key := Config.headerKey } }

/-- R125: the first eight keystream bytes determine the key and are arbitrary, and recovery after XOR with the signature is the
inverse map.
The spec marks R125 as its own inference. -/
def Obligations.KeystreamStartIsABijection : Prop :=
  let start (K : Vector Byte 8) : Vector Byte 8 := Vector.ofFn fun c : Fin 8 => keystream K c.val
  let unmask (k : Vector Byte 8) : Vector Byte 8 := Vector.ofFn fun c : Fin 8 => sig[c.val] ^^^ k[c.val]
  Function.Bijective start ∧
    (∀ K, recoverKeyRef (unmask (start K)) = K.toList) ∧
    (∀ k K, recoverKeyRef (unmask k) = K.toList → start K = k)

/-- R126: decrypting the eight raw bytes that the key was recovered from gives the signature's first eight bytes and no SIGERR, so
the self-check tests bytes 8..15 only.
The spec marks R126 as its own inference. -/
def Obligations.RecoveredKeyPassesItsOwnBytes : Prop :=
  ∀ (s a b : State), exec .kdfRecover s = .next a → exec .ciphInit a = .next b →
    ∃ t : State, xformSequence [(bankLo s.regs.raw, 4), (bankHi s.regs.raw, 4)] b = some (sig.toList.take 8, t) ∧
      t.regs.sigerr = false ∧ t.regs.ctr = 8

/-! ### Cipher laws -/

/-- R146: after CIPH_INIT the byte at counter `c` is XORed with `ks_K(c)`, whatever the data, and `LK = ks_K(CTR)` from the first
byte on, up to the wrap of the counter.
The spec marks R146 as its own inference. -/
def Obligations.OutputsAreInputsXorKeystream : Prop :=
  ∀ (s s0 : State) (feeds : List (Word × Nat)), exec .ciphInit s = .next s0 → countsOk feeds →
    (streamOf feeds).length < 2 ^ 32 →
    ∃ (outs : List Byte) (t : State), xformSequence feeds s0 = some (outs, t) ∧
      outs = (streamOf feeds).mapIdx (fun c b => b ^^^ keystream s.regs.key c) ∧
      t.regs.ctr.toNat = (streamOf feeds).length ∧
      (1 ≤ (streamOf feeds).length → t.regs.lk = keystream s.regs.key (streamOf feeds).length)

/-- R147: transforming the output again from CIPH_INIT under the same key gives the input back, whatever the split.
The spec marks R147 as its own inference. -/
def Obligations.TransformTwiceGivesInputBack : Prop :=
  ∀ (s s' s0 s0' t : State) (feeds feeds' : List (Word × Nat)) (outs : List Byte),
    exec .ciphInit s = .next s0 → exec .ciphInit s' = .next s0' → s.regs.key = s'.regs.key →
    countsOk feeds → countsOk feeds' →
    xformSequence feeds s0 = some (outs, t) → streamOf feeds' = outs →
    ∃ t' : State, xformSequence feeds' s0' = some (streamOf feeds, t')

/-- R149: outputs and final CTR, LK and SIGERR depend on the byte sequence, not on its split into commands.
The spec marks R149 as its own inference. -/
def Obligations.SplitIntoCommandsDoesNotMatter : Prop :=
  ∀ (s s0 : State) (feeds feeds' : List (Word × Nat)), exec .ciphInit s = .next s0 →
    countsOk feeds → countsOk feeds' → streamOf feeds = streamOf feeds' →
    ∃ (outs : List Byte) (t t' : State),
      xformSequence feeds s0 = some (outs, t) ∧ xformSequence feeds' s0 = some (outs, t') ∧
      t.regs.ctr = t'.regs.ctr ∧ t.regs.lk = t'.regs.lk ∧ t.regs.sigerr = t'.regs.sigerr

/-- R145, R144: after a block's first bytes from CIPH_INIT, SIGDONE says that sixteen are processed, and SIGERR is 0 exactly when
the outputs so far are the signature's bytes.
The spec marks R145 as its own inference. -/
def Obligations.SelfCheckComparesWithTheSignature : Prop :=
  ∀ (s s0 : State) (feeds : List (Word × Nat)), exec .ciphInit s = .next s0 → countsOk feeds →
    (streamOf feeds).length < 2 ^ 32 →
    ∃ (outs : List Byte) (t : State), xformSequence feeds s0 = some (outs, t) ∧
      (sigdone t.regs = true ↔ 16 ≤ outs.length) ∧
      (t.regs.sigerr = false ↔ outs.take 16 = sig.toList.take outs.length)

/-- R124, R146, R145, R242, R243, end to end (the spec marks R124, R145 and R146 as its own inferences): a leaf whose plaintext is the
signature and then a payload, encrypted under any key, decrypts on any unit with its first eight raw bytes in RAW, by KDF_RECOVER and
CIPH_INIT, to a block that the host accepts, and the payload is what the host hands on. -/
def Obligations.GenuineLeafDecryptsToItsPayload : Prop :=
  ∀ (K : Vector Byte 8) (payload : List Byte) (feeds : List (Word × Nat)) (u a b : State),
    16 + payload.length < 2 ^ 32 → countsOk feeds →
    streamOf feeds = (sig.toList ++ payload).mapIdx (fun c p => p ^^^ keystream K c) →
    u.regs.raw.toList = (streamOf feeds).take 8 →
    exec .kdfRecover u = .next a → exec .ciphInit a = .next b →
    ∃ (outs : List Byte) (t : State), xformSequence feeds b = some (outs, t) ∧
      sigdone t.regs = true ∧ blockVerdict .leaf t.regs = none ∧ leafPayload outs = payload

/-- R148: at `CTR = 0xFFFFFFFF` the next byte wraps the counter, and the byte after it reseeds from `KEY[0]` and is compared with
`SIG[0]`; no flag reports the wrap itself. The literal 0x4F is `SIG[0]` by the byte values of R25, which the spec marks as general
knowledge (log entry 6, PRESUMED). -/
def Obligations.CounterWrapReseeds : Prop :=
  ∀ s : State, s.regs.ctr = 0xFFFFFFFF →
    ∃ t : State, exec (.ciphXform 2) s = .next t ∧ t.regs.ctr = 1 ∧
      lane t.regs.dout 0 = lane s.regs.din 0 ^^^ s.regs.lk ∧
      lane t.regs.dout 1 = lane s.regs.din 1 ^^^ s.regs.key[0] ∧
      (t.regs.sigerr = true ↔ (s.regs.sigerr = true ∨ lane s.regs.din 1 ^^^ s.regs.key[0] ≠ 0x4F)) ∧
      t.regs.ill = s.regs.ill ∧ t.regs.accerr = s.regs.accerr

/-- R40, R152: a block saved by reading CTR, LK and the key is resumed on any unit by writing them back: every later output, and
CTR and LK at its end, are those of the unit it was saved from.
The spec marks R152 as its own inference. -/
def Obligations.SavedBlockResumesOnAnyUnit : Prop :=
  ∀ s s' : State,
    s'.pending = [.write 0x20 4 (readSlot .ctr s.regs), .write 0x24 4 (readSlot .lk s.regs),
      .write 0x10 4 (readSlot .keyLo s.regs), .write 0x14 4 (readSlot .keyHi s.regs)] →
    ∃ u : State, Host.Core.run core 4 s' = .next u ∧
      ∀ feeds : List (Word × Nat), countsOk feeds →
        ∃ (outs : List Byte) (t t' : State),
          xformSequence feeds s = some (outs, t) ∧ xformSequence feeds u = some (outs, t') ∧
          t.regs.ctr = t'.regs.ctr ∧ t.regs.lk = t'.regs.lk

/-! ### Invariants that every step keeps -/

/-- R146, R28: as long as the host neither writes CTR, LK or the key nor loads a key, every step keeps `LK = ks_K(CTR)` for
`1 <= CTR`, the steps that wrap, restart or reset included.
The spec marks R146 as its own inference. -/
def Obligations.EveryStepKeepsKeystreamInSync : Prop :=
  ∀ s t : State, (keystreamSynced s.regs ∧ ∀ e ∈ s.pending, keepsKeystream e = true) → step s = .next t →
    (keystreamSynced t.regs ∧ ∀ e ∈ t.pending, keepsKeystream e = true)

/-- R31: unless the host writes CS_CNT or CS_LEN, every step keeps CS_CNT at most `CS_LEN - 1`.
The spec marks R31 as its own inference. -/
def Obligations.EveryStepKeepsCountBounded : Prop :=
  ∀ s t : State, (countBounded s.regs ∧ ∀ e ∈ s.pending, keepsCount e = true) → step s = .next t →
    (countBounded t.regs ∧ ∀ e ∈ t.pending, keepsCount e = true)

/-- R30: unless the host writes CS_ACC, CS_CARRY or CS_CNT, every step keeps CS_CARRY the rotated accumulator at the end of each
complete group. -/
def Obligations.EveryStepKeepsCarryAtGroupEnds : Prop :=
  ∀ s t : State, (carryFollowsGroups s.regs ∧ ∀ e ∈ s.pending, keepsFold e = true) → step s = .next t →
    (carryFollowsGroups t.regs ∧ ∀ e ∈ t.pending, keepsFold e = true)

/-- The three invariants hold right after reset. -/
def Obligations.ResetMeetsTheInvariants : Prop :=
  (keystreamSynced State.reset.regs ∧ ∀ e ∈ State.reset.pending, keepsKeystream e = true) ∧
  (countBounded State.reset.regs ∧ ∀ e ∈ State.reset.pending, keepsCount e = true) ∧
  (carryFollowsGroups State.reset.regs ∧ ∀ e ∈ State.reset.pending, keepsFold e = true)

/-- R241, R150: an event that keeps a block's continuity, other than a CIPH_XFORM, leaves the key, the counter and the keystream
byte of the block as they are. -/
def Obligations.ContinuityKeepsTheBlock : Prop :=
  ∀ (s t : State) (e : HostEvent) (rest : List HostEvent), s.pending = e :: rest → step s = .next t →
    keepsBlock e = true → (∀ n, commandOf e ≠ some (.ciphXform n)) →
    t.regs.key = s.regs.key ∧ t.regs.ctr = s.regs.ctr ∧ t.regs.lk = s.regs.lk

/-! ### Reset, constants, platform -/

/-- R230: the reset values, the same at reset, after SRESET and after the hardware reset; STATUS then reads 0x00000010 and CMD 0.
The model's choices here are that SRESET keeps the pending events and the last reply (log entry 1), and that the hardware reset is a
host event that keeps the events after it and answers nothing (log entry 8). -/
def Obligations.ResetGivesTheListedValues : Prop :=
  let r0 : Regs :=
    { din := 0, dout := 0, key := Vector.replicate 8 0, raw := Vector.replicate 8 0, ctr := 0, lk := 0, sigerr := false,
      csAcc := 0, csCarry := 0, csCnt := 0, csLen := 0, csExp := 0, ill := false, accerr := false }
  State.reset.regs = r0 ∧
  (∀ s : State, exec .sreset s = .next { s with regs := r0 }) ∧
  (∀ (s : State) (rest : List HostEvent), s.pending = .hardReset :: rest → step s = .next ⟨r0, rest, none⟩) ∧
  hostRead 0x04 4 r0 = (0x00000010, r0) ∧ hostRead 0x00 4 r0 = (0, r0)

/-- R25: the signature ROM holds the sixteen ASCII bytes of the string. -/
def Obligations.SignatureIsTheAsciiString : Prop :=
  sig.toList = "ONKYO Encryption".toList.map fun ch => BitVec.ofNat 8 ch.toNat

/-- R6, R213: a step of one unit of a platform is that unit's own step, and leaves every other unit as it was. -/
def Obligations.InstancesShareNothing : Prop :=
  ∀ (n : Nat) (p p' : Platform n) (k : Fin n), p.stepAt k = .next p' →
    step p[k.val] = .next p'[k.val] ∧ ∀ j : Fin n, j ≠ k → p'[j.val] = p[j.val]

/-! ### Host assembly -/

/-- R77: each command mnemonic is the CMD write of its word; a count outside 1..4 is refused, not encoded. -/
def Obligations.MnemonicsExpandToCommandWrites : Prop :=
  expandLine (.command .nop) = some [.write 0x00 4 0x00000000] ∧
  expandLine (.command .ciphInit) = some [.write 0x00 4 0x00000001] ∧
  expandLine (.command .kdfRecover) = some [.write 0x00 4 0x00000003] ∧
  expandLine (.command .keyHdr) = some [.write 0x00 4 0x00000004] ∧
  expandLine (.command .csumInit) = some [.write 0x00 4 0x00000005] ∧
  expandLine (.command .sreset) = some [.write 0x00 4 0x00000007] ∧
  ∀ n : Nat,
    (1 ≤ n ∧ n ≤ 4 →
      expandLine (.command (.ciphXform n)) = some [.write 0x00 4 (BitVec.ofNat 32 (0x2 ||| ((n - 1) <<< 4)))] ∧
      expandLine (.command (.csumFeed n)) = some [.write 0x00 4 (BitVec.ofNat 32 (0x6 ||| ((n - 1) <<< 4)))]) ∧
    (¬ (1 ≤ n ∧ n ≤ 4) →
      expandLine (.command (.ciphXform n)) = none ∧ expandLine (.command (.csumFeed n)) = none)

/-- R78: the expansions of the further pseudo-instructions, in order. -/
def Obligations.PseudoInstructionsExpandAsListed : Prop :=
  (∀ k : Vector Byte 8,
    expandLine (.ldkey k) =
      some [.write 0x10 4 (le32 k[0] k[1] k[2] k[3]), .write 0x14 4 (le32 k[4] k[5] k[6] k[7])] ∧
    expandLine (.ldraw k) =
      some [.write 0x18 4 (le32 k[0] k[1] k[2] k[3]), .write 0x1C 4 (le32 k[4] k[5] k[6] k[7])]) ∧
  (∀ (w n : Nat), w < 2 ^ 32 → countOk n →
    expandLine (.xf w n) =
      some [.write 0x08 4 (BitVec.ofNat 32 w), .write 0x00 4 (BitVec.ofNat 32 (0x2 ||| ((n - 1) <<< 4)))] ∧
    expandLine (.cs w n) =
      some [.write 0x08 4 (BitVec.ofNat 32 w), .write 0x00 4 (BitVec.ofNat 32 (0x6 ||| ((n - 1) <<< 4)))]) ∧
  (∀ v : Nat, v < 2 ^ 32 →
    expandLine (.csbegin v) = some [.write 0x34 4 (BitVec.ofNat 32 v), .write 0x00 4 0x00000005] ∧
    expandLine (.clr v) = some [.write 0x04 4 (BitVec.ofNat 32 v)])

/-- R78, R142: the two accesses of an `XF` line, applied by two steps, are the data write and then the command on that data. -/
def Obligations.XfLineRunsTheCipherOnItsWord : Prop :=
  ∀ (s : State) (w n : Nat) (es rest : List HostEvent), expandLine (.xf w n) = some es → s.pending = es ++ rest →
    ∃ t : State, step s = .next t ∧
      step t = exec (.ciphXform n) ⟨{ s.regs with din := BitVec.ofNat 32 w }, rest, none⟩

/-! ### The windows of a platform -/

/-- R213, R3, R50: with windows that share no address, a bus access at an address in the window of unit `k` reaches unit `k`, at its
offset there, and no other unit, and an access at an address in no window reaches none. That a unit sees the access as the newest of
its pending events is the model's choice (log entry 1). -/
def Obligations.EachUnitIsReachedThroughItsOwnWindow : Prop :=
  ∀ (n : Nat) (base : Fin n → Nat) (p : Platform n) (addr width : Nat) (v : Word),
    (∀ i j : Fin n, i ≠ j → base i + 64 ≤ base j ∨ base j + 64 ≤ base i) →
    (∀ (k : Fin n) (off : Nat), addr = base k + off → off < 64 →
      ∃ q q' : Platform n, Platform.busRead base addr width p = some q ∧ Platform.busWrite base addr width v p = some q' ∧
        q[k.val] = { p[k.val] with pending := p[k.val].pending ++ [.read off width] } ∧
        q'[k.val] = { p[k.val] with pending := p[k.val].pending ++ [.write off width v] } ∧
        ∀ j : Fin n, j ≠ k → q[j.val] = p[j.val] ∧ q'[j.val] = p[j.val]) ∧
    ((∀ k : Fin n, addr < base k ∨ base k + 64 ≤ addr) →
      Platform.busRead base addr width p = none ∧ Platform.busWrite base addr width v p = none)
end

