-- ==== Sys2Proof/Laws/Bits.lean ====
section
/-! SUPPORT. Lanes and packing: reading back a lane of a packed word, and packing the lanes of a word (R10, R56). -/

namespace Sys2Proof.Machine

theorem lane_toNat (w : Word) (i : Nat) : (lane w i).toNat = w.toNat / 2 ^ (8 * i) % 256 := by
  simp [lane, BitVec.extractLsb'_toNat, Nat.shiftRight_eq_div_pow]

theorem atLane_toNat (b : Byte) (p : Nat) (hp : p < 4) : (atLane b p).toNat = b.toNat * 2 ^ (8 * p) := by
  have hb := b.isLt
  have : b.toNat * 2 ^ (8 * p) < 2 ^ 32 := by
    calc b.toNat * 2 ^ (8 * p) < 2 ^ 8 * 2 ^ (8 * p) := Nat.mul_lt_mul_of_pos_right hb (by positivity)
      _ = 2 ^ (8 + 8 * p) := (Nat.pow_add ..).symm
      _ ≤ 2 ^ 32 := Nat.pow_le_pow_right (by omega) (by omega)
  simp only [atLane, BitVec.toNat_shiftLeft, BitVec.toNat_setWidth, Nat.shiftLeft_eq]
  rw [Nat.mod_eq_of_lt (show b.toNat < 2 ^ 32 by omega), Nat.mod_eq_of_lt this]

/-- Packing four bytes is exact: no lane disturbs another (R106). -/
theorem le32_toNat (b0 b1 b2 b3 : Byte) :
    (le32 b0 b1 b2 b3).toNat = b0.toNat + b1.toNat * 2 ^ 8 + b2.toNat * 2 ^ 16 + b3.toNat * 2 ^ 24 := by
  have h0 := b0.isLt
  have h1 := b1.isLt
  have h2 := b2.isLt
  have h3 := b3.isLt
  simp only [le32, BitVec.toNat_add, atLane_toNat _ _ (show 0 < 4 by omega), atLane_toNat _ _ (show 1 < 4 by omega),
    atLane_toNat _ _ (show 2 < 4 by omega), atLane_toNat _ _ (show 3 < 4 by omega)]
  omega

@[simp] theorem lane_zero_le32 (b0 b1 b2 b3 : Byte) : lane (le32 b0 b1 b2 b3) 0 = b0 := by
  have h0 := b0.isLt
  apply BitVec.eq_of_toNat_eq
  rw [lane_toNat, le32_toNat]
  omega

@[simp] theorem lane_one_le32 (b0 b1 b2 b3 : Byte) : lane (le32 b0 b1 b2 b3) 1 = b1 := by
  have h0 := b0.isLt
  have h1 := b1.isLt
  apply BitVec.eq_of_toNat_eq
  rw [lane_toNat, le32_toNat]
  omega

@[simp] theorem lane_two_le32 (b0 b1 b2 b3 : Byte) : lane (le32 b0 b1 b2 b3) 2 = b2 := by
  have h0 := b0.isLt
  have h1 := b1.isLt
  have h2 := b2.isLt
  apply BitVec.eq_of_toNat_eq
  rw [lane_toNat, le32_toNat]
  omega

@[simp] theorem lane_three_le32 (b0 b1 b2 b3 : Byte) : lane (le32 b0 b1 b2 b3) 3 = b3 := by
  have h0 := b0.isLt
  have h1 := b1.isLt
  have h2 := b2.isLt
  have h3 := b3.isLt
  apply BitVec.eq_of_toNat_eq
  rw [lane_toNat, le32_toNat]
  omega

/-- A word is the packing of its lanes. -/
@[simp] theorem le32_lanes (w : Word) : le32 (lane w 0) (lane w 1) (lane w 2) (lane w 3) = w := by
  have h := w.isLt
  apply BitVec.eq_of_toNat_eq
  rw [le32_toNat]
  simp only [lane_toNat]
  omega

@[simp] theorem lanes_length (w : Word) : (lanes w).length = 4 := rfl

@[simp] theorem lanes_le32 (b0 b1 b2 b3 : Byte) : lanes (le32 b0 b1 b2 b3) = [b0, b1, b2, b3] := by
  simp [lanes]

/-- The lanes of a packed byte list are its bytes, then zeros (R143). -/
theorem lanes_ofLanes (bs : List Byte) : lanes (ofLanes bs) = [bs.getD 0 0, bs.getD 1 0, bs.getD 2 0, bs.getD 3 0] := by
  simp [ofLanes]

/-- Reading back the lanes that a byte list of at most four bytes was packed into gives it back. -/
theorem take_lanes_ofLanes (bs : List Byte) (h : bs.length ≤ 4) : (lanes (ofLanes bs)).take bs.length = bs := by
  rw [lanes_ofLanes]
  match bs, h with
  | [], _ => rfl
  | [_], _ => rfl
  | [_, _], _ => rfl
  | [_, _, _], _ => rfl
  | [_, _, _, _], _ => rfl

end Sys2Proof.Machine
end

