-- ==== Sys2Proof/Laws/State.lean ====
section
/-! SUPPORT. One lemma per field for each update of the state and of the registers, true by unfolding the update once. -/

namespace Sys2Proof.Machine

@[simp] theorem State.withRegs_regs (s : State) (r : Regs) :
    (s.withRegs r).regs = r := rfl
@[simp] theorem State.withRegs_pending (s : State) (r : Regs) :
    (s.withRegs r).pending = s.pending := rfl
@[simp] theorem State.withRegs_reply (s : State) (r : Regs) :
    (s.withRegs r).reply = s.reply := rfl
@[simp] theorem State.taken_regs (s : State) (rest : List HostEvent) (answer : Option Word) :
    (s.taken rest answer).regs = s.regs := rfl
@[simp] theorem State.taken_pending (s : State) (rest : List HostEvent) (answer : Option Word) :
    (s.taken rest answer).pending = rest := rfl
@[simp] theorem State.taken_reply (s : State) (rest : List HostEvent) (answer : Option Word) :
    (s.taken rest answer).reply = answer := rfl
@[simp] theorem State.issue_regs (s : State) (es : List HostEvent) :
    (s.issue es).regs = s.regs := rfl
@[simp] theorem State.issue_pending (s : State) (es : List HostEvent) :
    (s.issue es).pending = s.pending ++ es := rfl
@[simp] theorem State.issue_reply (s : State) (es : List HostEvent) :
    (s.issue es).reply = s.reply := rfl

@[simp] theorem State.withRegs_regs_self (s : State) : s.withRegs s.regs = s := rfl
@[simp] theorem State.withRegs_withRegs (s : State) (r r' : Regs) : (s.withRegs r).withRegs r' = s.withRegs r' := rfl

@[simp] theorem raise_din (c : Condition) (r : Regs) : (raise c r).din = r.din := by
  cases c <;> simp [raise]
@[simp] theorem raise_dout (c : Condition) (r : Regs) : (raise c r).dout = r.dout := by
  cases c <;> simp [raise]
@[simp] theorem raise_key (c : Condition) (r : Regs) : (raise c r).key = r.key := by
  cases c <;> simp [raise]
@[simp] theorem raise_raw (c : Condition) (r : Regs) : (raise c r).raw = r.raw := by
  cases c <;> simp [raise]
@[simp] theorem raise_ctr (c : Condition) (r : Regs) : (raise c r).ctr = r.ctr := by
  cases c <;> simp [raise]
@[simp] theorem raise_lk (c : Condition) (r : Regs) : (raise c r).lk = r.lk := by
  cases c <;> simp [raise]
@[simp] theorem raise_sigerr (c : Condition) (r : Regs) : (raise c r).sigerr = (r.sigerr || decide (c = .signatureMismatch)) := by
  cases c <;> simp [raise]
@[simp] theorem raise_csAcc (c : Condition) (r : Regs) : (raise c r).csAcc = r.csAcc := by
  cases c <;> simp [raise]
@[simp] theorem raise_csCarry (c : Condition) (r : Regs) : (raise c r).csCarry = r.csCarry := by
  cases c <;> simp [raise]
@[simp] theorem raise_csCnt (c : Condition) (r : Regs) : (raise c r).csCnt = r.csCnt := by
  cases c <;> simp [raise]
@[simp] theorem raise_csLen (c : Condition) (r : Regs) : (raise c r).csLen = r.csLen := by
  cases c <;> simp [raise]
@[simp] theorem raise_csExp (c : Condition) (r : Regs) : (raise c r).csExp = r.csExp := by
  cases c <;> simp [raise]
@[simp] theorem raise_ill (c : Condition) (r : Regs) : (raise c r).ill = (r.ill || decide (c = .illegalCommand)) := by
  cases c <;> simp [raise]
@[simp] theorem raise_accerr (c : Condition) (r : Regs) : (raise c r).accerr = (r.accerr || decide (c = .accessError)) := by
  cases c <;> simp [raise]

@[simp] theorem clearFlags_din (v : Word) (r : Regs) : (clearFlags v r).din = r.din := rfl
@[simp] theorem clearFlags_dout (v : Word) (r : Regs) : (clearFlags v r).dout = r.dout := rfl
@[simp] theorem clearFlags_key (v : Word) (r : Regs) : (clearFlags v r).key = r.key := rfl
@[simp] theorem clearFlags_raw (v : Word) (r : Regs) : (clearFlags v r).raw = r.raw := rfl
@[simp] theorem clearFlags_ctr (v : Word) (r : Regs) : (clearFlags v r).ctr = r.ctr := rfl
@[simp] theorem clearFlags_lk (v : Word) (r : Regs) : (clearFlags v r).lk = r.lk := rfl
@[simp] theorem clearFlags_sigerr (v : Word) (r : Regs) : (clearFlags v r).sigerr = if v.getLsbD 2 then false else r.sigerr := rfl
@[simp] theorem clearFlags_csAcc (v : Word) (r : Regs) : (clearFlags v r).csAcc = r.csAcc := rfl
@[simp] theorem clearFlags_csCarry (v : Word) (r : Regs) : (clearFlags v r).csCarry = r.csCarry := rfl
@[simp] theorem clearFlags_csCnt (v : Word) (r : Regs) : (clearFlags v r).csCnt = r.csCnt := rfl
@[simp] theorem clearFlags_csLen (v : Word) (r : Regs) : (clearFlags v r).csLen = r.csLen := rfl
@[simp] theorem clearFlags_csExp (v : Word) (r : Regs) : (clearFlags v r).csExp = r.csExp := rfl
@[simp] theorem clearFlags_ill (v : Word) (r : Regs) : (clearFlags v r).ill = if v.getLsbD 0 then false else r.ill := rfl
@[simp] theorem clearFlags_accerr (v : Word) (r : Regs) : (clearFlags v r).accerr = if v.getLsbD 1 then false else r.accerr := rfl

@[simp] theorem startChecksum_din (r : Regs) : (startChecksum r).din = r.din := rfl
@[simp] theorem startChecksum_dout (r : Regs) : (startChecksum r).dout = r.dout := rfl
@[simp] theorem startChecksum_key (r : Regs) : (startChecksum r).key = r.key := rfl
@[simp] theorem startChecksum_raw (r : Regs) : (startChecksum r).raw = r.raw := rfl
@[simp] theorem startChecksum_ctr (r : Regs) : (startChecksum r).ctr = r.ctr := rfl
@[simp] theorem startChecksum_lk (r : Regs) : (startChecksum r).lk = r.lk := rfl
@[simp] theorem startChecksum_sigerr (r : Regs) : (startChecksum r).sigerr = r.sigerr := rfl
@[simp] theorem startChecksum_csAcc (r : Regs) : (startChecksum r).csAcc = 0 := rfl
@[simp] theorem startChecksum_csCarry (r : Regs) : (startChecksum r).csCarry = 0 := rfl
@[simp] theorem startChecksum_csCnt (r : Regs) : (startChecksum r).csCnt = 0 := rfl
@[simp] theorem startChecksum_csLen (r : Regs) : (startChecksum r).csLen = r.csLen := rfl
@[simp] theorem startChecksum_csExp (r : Regs) : (startChecksum r).csExp = r.csExp := rfl
@[simp] theorem startChecksum_ill (r : Regs) : (startChecksum r).ill = r.ill := rfl
@[simp] theorem startChecksum_accerr (r : Regs) : (startChecksum r).accerr = r.accerr := rfl

@[simp] theorem loadKey_din (k : Vector Byte 8) (r : Regs) : (loadKey k r).din = r.din := rfl
@[simp] theorem loadKey_dout (k : Vector Byte 8) (r : Regs) : (loadKey k r).dout = r.dout := rfl
@[simp] theorem loadKey_key (k : Vector Byte 8) (r : Regs) : (loadKey k r).key = k := rfl
@[simp] theorem loadKey_raw (k : Vector Byte 8) (r : Regs) : (loadKey k r).raw = r.raw := rfl
@[simp] theorem loadKey_ctr (k : Vector Byte 8) (r : Regs) : (loadKey k r).ctr = r.ctr := rfl
@[simp] theorem loadKey_lk (k : Vector Byte 8) (r : Regs) : (loadKey k r).lk = r.lk := rfl
@[simp] theorem loadKey_sigerr (k : Vector Byte 8) (r : Regs) : (loadKey k r).sigerr = r.sigerr := rfl
@[simp] theorem loadKey_csAcc (k : Vector Byte 8) (r : Regs) : (loadKey k r).csAcc = r.csAcc := rfl
@[simp] theorem loadKey_csCarry (k : Vector Byte 8) (r : Regs) : (loadKey k r).csCarry = r.csCarry := rfl
@[simp] theorem loadKey_csCnt (k : Vector Byte 8) (r : Regs) : (loadKey k r).csCnt = r.csCnt := rfl
@[simp] theorem loadKey_csLen (k : Vector Byte 8) (r : Regs) : (loadKey k r).csLen = r.csLen := rfl
@[simp] theorem loadKey_csExp (k : Vector Byte 8) (r : Regs) : (loadKey k r).csExp = r.csExp := rfl
@[simp] theorem loadKey_ill (k : Vector Byte 8) (r : Regs) : (loadKey k r).ill = r.ill := rfl
@[simp] theorem loadKey_accerr (k : Vector Byte 8) (r : Regs) : (loadKey k r).accerr = r.accerr := rfl

@[simp] theorem startBlock_din (r : Regs) : (startBlock r).din = r.din := rfl
@[simp] theorem startBlock_dout (r : Regs) : (startBlock r).dout = r.dout := rfl
@[simp] theorem startBlock_key (r : Regs) : (startBlock r).key = r.key := rfl
@[simp] theorem startBlock_raw (r : Regs) : (startBlock r).raw = r.raw := rfl
@[simp] theorem startBlock_ctr (r : Regs) : (startBlock r).ctr = 0 := rfl
@[simp] theorem startBlock_lk (r : Regs) : (startBlock r).lk = 0 := rfl
@[simp] theorem startBlock_sigerr (r : Regs) : (startBlock r).sigerr = false := rfl
@[simp] theorem startBlock_csAcc (r : Regs) : (startBlock r).csAcc = r.csAcc := rfl
@[simp] theorem startBlock_csCarry (r : Regs) : (startBlock r).csCarry = r.csCarry := rfl
@[simp] theorem startBlock_csCnt (r : Regs) : (startBlock r).csCnt = r.csCnt := rfl
@[simp] theorem startBlock_csLen (r : Regs) : (startBlock r).csLen = r.csLen := rfl
@[simp] theorem startBlock_csExp (r : Regs) : (startBlock r).csExp = r.csExp := rfl
@[simp] theorem startBlock_ill (r : Regs) : (startBlock r).ill = r.ill := rfl
@[simp] theorem startBlock_accerr (r : Regs) : (startBlock r).accerr = r.accerr := rfl

end Sys2Proof.Machine
end

