-- ==== Sys2Proof/Laws/Checksum.lean ====
section
/-! SUPPORT. What CSUM_FEED does to each field, byte by byte and over a byte list (R102). -/

namespace Sys2Proof.Machine

/-- A byte that is not folded changes nothing (R102). -/
theorem foldByte_of_full {r : Regs} (b : Byte) (h : ¬ r.csCnt.toNat + 1 < r.csLen.toNat) : foldByte r b = r := by
  unfold foldByte
  rw [if_neg (by omega)]

/-- A folded byte changes the accumulator, the carry and the count, and nothing else (R102). -/
theorem foldByte_of_room {r : Regs} (b : Byte) (h : r.csCnt.toNat + 1 < r.csLen.toNat) :
    foldByte r b =
      { r with
        csAcc := if r.csCnt.toNat % 4 = 0 then r.csCarry + b.setWidth 32 else r.csAcc + atLane b (r.csCnt.toNat % 4)
        csCarry :=
          if r.csCnt.toNat % 4 = 3 then
            rotl32 (if r.csCnt.toNat % 4 = 0 then r.csCarry + b.setWidth 32 else r.csAcc + atLane b (r.csCnt.toNat % 4)) 11
          else r.csCarry
        csCnt := r.csCnt + 1 } := by
  unfold foldByte
  rw [if_pos (by omega)]

/-- Only the accumulator, the carry and the count can differ after a byte (R102). -/
theorem foldByte_frame (r : Regs) (b : Byte) :
    foldByte r b =
      { r with csAcc := (foldByte r b).csAcc, csCarry := (foldByte r b).csCarry, csCnt := (foldByte r b).csCnt } := by
  by_cases h : r.csCnt.toNat + 1 < r.csLen.toNat
  · rw [foldByte_of_room b h]
  · rw [foldByte_of_full b h]

@[simp] theorem foldByte_csLen (r : Regs) (b : Byte) : (foldByte r b).csLen = r.csLen := by rw [foldByte_frame]

@[simp] theorem foldBytes_nil (r : Regs) : foldBytes [] r = r := rfl

@[simp] theorem foldBytes_cons (b : Byte) (bs : List Byte) (r : Regs) :
    foldBytes (b :: bs) r = foldBytes bs (foldByte r b) := rfl

theorem foldBytes_append (bs cs : List Byte) (r : Regs) : foldBytes (bs ++ cs) r = foldBytes cs (foldBytes bs r) := by
  simp [foldBytes]

/-- Only the accumulator, the carry and the count can differ after any bytes (R102). -/
theorem foldBytes_frame (bs : List Byte) (r : Regs) :
    foldBytes bs r =
      { r with csAcc := (foldBytes bs r).csAcc, csCarry := (foldBytes bs r).csCarry, csCnt := (foldBytes bs r).csCnt } := by
  induction bs generalizing r with
  | nil => rfl
  | cons b bs ih => rw [foldBytes_cons, ih, foldByte_frame]

@[simp] theorem foldBytes_din (bs : List Byte) (r : Regs) : (foldBytes bs r).din = r.din := by rw [foldBytes_frame]
@[simp] theorem foldBytes_dout (bs : List Byte) (r : Regs) : (foldBytes bs r).dout = r.dout := by rw [foldBytes_frame]
@[simp] theorem foldBytes_key (bs : List Byte) (r : Regs) : (foldBytes bs r).key = r.key := by rw [foldBytes_frame]
@[simp] theorem foldBytes_raw (bs : List Byte) (r : Regs) : (foldBytes bs r).raw = r.raw := by rw [foldBytes_frame]
@[simp] theorem foldBytes_ctr (bs : List Byte) (r : Regs) : (foldBytes bs r).ctr = r.ctr := by rw [foldBytes_frame]
@[simp] theorem foldBytes_lk (bs : List Byte) (r : Regs) : (foldBytes bs r).lk = r.lk := by rw [foldBytes_frame]
@[simp] theorem foldBytes_sigerr (bs : List Byte) (r : Regs) : (foldBytes bs r).sigerr = r.sigerr := by rw [foldBytes_frame]
@[simp] theorem foldBytes_csLen (bs : List Byte) (r : Regs) : (foldBytes bs r).csLen = r.csLen := by rw [foldBytes_frame]
@[simp] theorem foldBytes_csExp (bs : List Byte) (r : Regs) : (foldBytes bs r).csExp = r.csExp := by rw [foldBytes_frame]
@[simp] theorem foldBytes_ill (bs : List Byte) (r : Regs) : (foldBytes bs r).ill = r.ill := by rw [foldBytes_frame]
@[simp] theorem foldBytes_accerr (bs : List Byte) (r : Regs) : (foldBytes bs r).accerr = r.accerr := by rw [foldBytes_frame]

/-- A folded byte raises the count by one, with no wrap (R102). -/
theorem foldByte_csCnt_toNat {r : Regs} (b : Byte) (h : r.csCnt.toNat + 1 < r.csLen.toNat) :
    (foldByte r b).csCnt.toNat = r.csCnt.toNat + 1 := by
  have := r.csLen.isLt
  rw [foldByte_of_room b h]
  simp only [BitVec.toNat_add]
  simp
  omega

end Sys2Proof.Machine
end

