-- ==== Sys2Proof/Laws/Cipher.lean ====
section
/-! SUPPORT. What CIPH_XFORM does to each field, byte by byte and over a byte list (R141, R142, R143). -/

namespace Sys2Proof.Machine

/-- The output byte of one cipher byte (R141 step 2). -/
@[simp] theorem xformByte_out (b : Byte) (r : Regs) : (xformByte b r).1 = b ^^^ seeded r.key r.ctr r.lk := rfl

/-- One cipher byte changes the counter, the keystream byte and SIGERR, and nothing else (R142). -/
theorem xformByte_regs (b : Byte) (r : Regs) :
    (xformByte b r).2 =
      { r with
        ctr := r.ctr + 1
        lk := nextKeystream r.key r.ctr (seeded r.key r.ctr r.lk)
        sigerr := r.sigerr || sigMismatch r.ctr (b ^^^ seeded r.key r.ctr r.lk) } := by
  simp only [xformByte, cipherStep]
  cases sigMismatch r.ctr (b ^^^ seeded r.key r.ctr r.lk) <;> simp [raiseIf, raise]

@[simp] theorem xformBytes_nil (r : Regs) : xformBytes [] r = ([], r) := rfl

theorem xformBytes_cons (b : Byte) (bs : List Byte) (r : Regs) :
    xformBytes (b :: bs) r =
      ((xformByte b r).1 :: (xformBytes bs (xformByte b r).2).1, (xformBytes bs (xformByte b r).2).2) := rfl

theorem xformBytes_append (bs cs : List Byte) (r : Regs) :
    xformBytes (bs ++ cs) r =
      ((xformBytes bs r).1 ++ (xformBytes cs (xformBytes bs r).2).1, (xformBytes cs (xformBytes bs r).2).2) := by
  induction bs generalizing r with
  | nil => rfl
  | cons b bs ih => simp [xformBytes_cons, ih]

@[simp] theorem xformBytes_length (bs : List Byte) (r : Regs) : (xformBytes bs r).1.length = bs.length := by
  induction bs generalizing r with
  | nil => rfl
  | cons b bs ih => simp [xformBytes_cons, ih]

/-- Only the counter, the keystream byte and SIGERR can differ after any bytes (R142). -/
theorem xformBytes_frame (bs : List Byte) (r : Regs) :
    (xformBytes bs r).2 =
      { r with
        ctr := (xformBytes bs r).2.ctr
        lk := (xformBytes bs r).2.lk
        sigerr := (xformBytes bs r).2.sigerr } := by
  induction bs generalizing r with
  | nil => rfl
  | cons b bs ih => simp only [xformBytes_cons]; rw [ih, xformByte_regs]

/-- The counter counts the bytes, modulo 2^32 (R27). -/
theorem xformBytes_ctr (bs : List Byte) (r : Regs) : (xformBytes bs r).2.ctr = r.ctr + BitVec.ofNat 32 bs.length := by
  induction bs generalizing r with
  | nil => simp
  | cons b bs ih =>
    simp only [xformBytes_cons, ih, xformByte_regs, List.length_cons]
    rw [BitVec.add_assoc, Nat.add_comm, BitVec.ofNat_add]
    rfl

@[simp] theorem xformBytes_key (bs : List Byte) (r : Regs) : (xformBytes bs r).2.key = r.key := by rw [xformBytes_frame]

/-- SIGERR is sticky within a command (R144). -/
theorem xformBytes_sigerr_of (bs : List Byte) {r : Regs} (h : r.sigerr = true) : (xformBytes bs r).2.sigerr = true := by
  induction bs generalizing r with
  | nil => exact h
  | cons b bs ih => exact ih (by simp [xformByte_regs, h])

theorem xformBytes_concat (bs : List Byte) (b : Byte) (r : Regs) :
    xformBytes (bs ++ [b]) r =
      ((xformBytes bs r).1 ++ [(xformByte b (xformBytes bs r).2).1], (xformByte b (xformBytes bs r).2).2) := by
  rw [xformBytes_append]
  rfl

/-- The registers after `i + 1` bytes are those after byte `i` on the registers after `i` bytes (R142). -/
theorem xformBytes_take_succ {bs : List Byte} {i : Nat} (h : i < bs.length) (r : Regs) :
    (xformBytes (bs.take (i + 1)) r).2 = (xformByte bs[i] (xformBytes (bs.take i) r).2).2 := by
  rw [List.take_succ_eq_append_getElem h, xformBytes_concat]

/-- Output byte `i` is that of byte `i` on the registers after `i` bytes (R142). -/
theorem xformBytes_getElem {bs : List Byte} {i : Nat} (h : i < bs.length) (r : Regs) :
    (xformBytes bs r).1[i]'(by simpa using h) =
      bs[i] ^^^ seeded r.key (r.ctr + BitVec.ofNat 32 i) (xformBytes (bs.take i) r).2.lk := by
  induction bs generalizing r i with
  | nil => simp at h
  | cons b bs ih =>
    cases i with
    | zero => simp [xformBytes_cons]
    | succ i =>
      have h' : i < bs.length := by simpa using h
      have hc : r.ctr + 1 + BitVec.ofNat 32 i = r.ctr + BitVec.ofNat 32 (i + 1) := by
        rw [BitVec.add_assoc, Nat.add_comm, BitVec.ofNat_add]
        rfl
      simp [xformBytes_cons, ih h', xformByte_regs, ← hc]

/-- SIGERR after the bytes: it was set before, or some output byte failed the self-check (R144). -/
theorem xformBytes_sigerr (bs : List Byte) (r : Regs) :
    (xformBytes bs r).2.sigerr = true ↔
      (r.sigerr = true ∨ ∃ i, ∃ h : i < bs.length,
        sigMismatch (r.ctr + BitVec.ofNat 32 i) ((xformBytes bs r).1[i]'(by simpa using h)) = true) := by
  induction bs using List.reverseRecOn with
  | nil => simp
  | append_singleton bs b ih =>
    simp only [xformBytes_concat, xformByte_regs, Bool.or_eq_true, ih, xformBytes_ctr, xformByte_out]
    constructor
    · rintro ((h | ⟨i, h, hm⟩) | hm)
      · exact .inl h
      · exact .inr ⟨i, by simp; omega, by rw [List.getElem_append_left (by simpa using h)]; exact hm⟩
      · exact .inr ⟨bs.length, by simp, by simpa [xformBytes_key] using hm⟩
    · rintro (h | ⟨i, h, hm⟩)
      · exact .inl (.inl h)
      · by_cases hi : i < bs.length
        · exact .inl (.inr ⟨i, hi, by rwa [List.getElem_append_left (by simpa using hi)] at hm⟩)
        · have : i = bs.length := by simp at h; omega
          subst this
          exact .inr (by simpa [xformBytes_key] using hm)

/-- The cipher reads the key, the counter, the keystream byte and SIGERR, and no other register (R142). -/
theorem xformBytes_congr (bs : List Byte) {r r' : Regs} (hk : r.key = r'.key) (hc : r.ctr = r'.ctr) (hl : r.lk = r'.lk) :
    (xformBytes bs r).1 = (xformBytes bs r').1 ∧ (xformBytes bs r).2.ctr = (xformBytes bs r').2.ctr ∧
      (xformBytes bs r).2.lk = (xformBytes bs r').2.lk ∧
      (r.sigerr = r'.sigerr → (xformBytes bs r).2.sigerr = (xformBytes bs r').2.sigerr) := by
  induction bs generalizing r r' with
  | nil => exact ⟨rfl, hc, hl, id⟩
  | cons b bs ih =>
    obtain ⟨h1, h2, h3, h4⟩ := ih (r := (xformByte b r).2) (r' := (xformByte b r').2)
      (by simp [xformByte_regs, hk]) (by simp [xformByte_regs, hc]) (by simp [xformByte_regs, hk, hc, hl])
    refine ⟨by simp [xformBytes_cons, h1, hk, hc, hl], h2, h3, fun hs => h4 ?_⟩
    simp [xformByte_regs, hk, hc, hl, hs]

@[simp] theorem transform_dout (bs : List Byte) (r : Regs) : (transform bs r).dout = ofLanes (xformBytes bs r).1 := by
  simp only [transform]
@[simp] theorem transform_ctr (bs : List Byte) (r : Regs) : (transform bs r).ctr = (xformBytes bs r).2.ctr := by
  simp only [transform]
@[simp] theorem transform_lk (bs : List Byte) (r : Regs) : (transform bs r).lk = (xformBytes bs r).2.lk := by
  simp only [transform]
@[simp] theorem transform_sigerr (bs : List Byte) (r : Regs) : (transform bs r).sigerr = (xformBytes bs r).2.sigerr := by
  simp only [transform]

/-- CIPH_XFORM changes DOUT, CTR, LK and SIGERR, and nothing else (R142). -/
theorem transform_frame (bs : List Byte) (r : Regs) :
    transform bs r =
      { r with
        dout := ofLanes (xformBytes bs r).1
        ctr := (xformBytes bs r).2.ctr
        lk := (xformBytes bs r).2.lk
        sigerr := (xformBytes bs r).2.sigerr } := by
  simp only [transform]
  rw [xformBytes_frame]

@[simp] theorem transform_din (bs : List Byte) (r : Regs) : (transform bs r).din = r.din := by rw [transform_frame]
@[simp] theorem transform_key (bs : List Byte) (r : Regs) : (transform bs r).key = r.key := by rw [transform_frame]
@[simp] theorem transform_raw (bs : List Byte) (r : Regs) : (transform bs r).raw = r.raw := by rw [transform_frame]
@[simp] theorem transform_csAcc (bs : List Byte) (r : Regs) : (transform bs r).csAcc = r.csAcc := by rw [transform_frame]
@[simp] theorem transform_csCarry (bs : List Byte) (r : Regs) : (transform bs r).csCarry = r.csCarry := by rw [transform_frame]
@[simp] theorem transform_csCnt (bs : List Byte) (r : Regs) : (transform bs r).csCnt = r.csCnt := by rw [transform_frame]
@[simp] theorem transform_csLen (bs : List Byte) (r : Regs) : (transform bs r).csLen = r.csLen := by rw [transform_frame]
@[simp] theorem transform_csExp (bs : List Byte) (r : Regs) : (transform bs r).csExp = r.csExp := by rw [transform_frame]
@[simp] theorem transform_ill (bs : List Byte) (r : Regs) : (transform bs r).ill = r.ill := by rw [transform_frame]
@[simp] theorem transform_accerr (bs : List Byte) (r : Regs) : (transform bs r).accerr = r.accerr := by rw [transform_frame]

/-- The keystream register steps along the keystream of R146. -/
theorem nextKeystream_eq (K : Vector Byte 8) (c : Word) : nextKeystream K c (keystream K c.toNat) = keystream K (c.toNat + 1) := by
  simp only [nextKeystream, scheduleByte, keystream, rotl8]

end Sys2Proof.Machine
end

