-- ==== Sys2Proof/Laws/Decode.lean ====
section
/-! SUPPORT. The fields of a packed command word, and what decoding a word can answer (R71, R73). -/

namespace Sys2Proof

/-- The number a command word is: its fields, the reserved bits 0. -/
theorem commandWord_toNat (op : BitVec 4) (nm1 : BitVec 2) :
    (commandWord op nm1).toNat = nm1.toNat * 16 + op.toNat := by
  have h := op.isLt
  simp only [commandWord, BitVec.toNat_append, BitVec.toNat_ofNat]
  rw [← Nat.shiftLeft_add_eq_or_of_lt h, ← Nat.shiftLeft_add_eq_or_of_lt nm1.isLt]
  simp [Nat.shiftLeft_eq]

@[simp] theorem opField_commandWord (op : BitVec 4) (nm1 : BitVec 2) : opField (commandWord op nm1) = op := by
  have h := op.isLt
  apply BitVec.eq_of_toNat_eq
  simp only [opField, BitVec.extractLsb'_toNat, commandWord_toNat, Nat.shiftRight_eq_div_pow]
  omega

@[simp] theorem nm1Field_commandWord (op : BitVec 4) (nm1 : BitVec 2) : nm1Field (commandWord op nm1) = nm1 := by
  have h := op.isLt
  have h' := nm1.isLt
  apply BitVec.eq_of_toNat_eq
  simp only [nm1Field, BitVec.extractLsb'_toNat, commandWord_toNat, Nat.shiftRight_eq_div_pow]
  omega

@[simp] theorem rsvField_commandWord (op : BitVec 4) (nm1 : BitVec 2) : rsvField (commandWord op nm1) = 0 := by
  have h := op.isLt
  have h' := nm1.isLt
  apply BitVec.eq_of_toNat_eq
  simp only [rsvField, BitVec.extractLsb'_toNat, commandWord_toNat, Nat.shiftRight_eq_div_pow,
    BitVec.ofNat_eq_ofNat, BitVec.toNat_ofNat]
  omega

/-- A word is put together from its three fields. -/
theorem toNat_of_fields (w : Word) :
    w.toNat = (rsvField w).toNat * 64 + (nm1Field w).toNat * 16 + (opField w).toNat := by
  have h := w.isLt
  simp only [rsvField, nm1Field, opField, BitVec.extractLsb'_toNat, Nat.shiftRight_eq_div_pow]
  omega

/-- Decoding with a byte count gives it back from `N - 1`. -/
theorem countOf_ofNat {n : Nat} (h : countOk n) : countOf (BitVec.ofNat 2 (n - 1)) = n := by
  simp only [countOf, BitVec.toNat_ofNat]
  omega

/-- What decoding answers once the reserved bits are 0, by opcode (R73). -/
theorem decodeFixed_ok {nm1 : BitVec 2} {i j : Instr} (h : decodeFixed nm1 i = .ok j) : nm1 = 0 ∧ j = i := by
  unfold decodeFixed at h
  split at h <;> simp_all

/-- What a legal word is (R73): its reserved bits are 0 and its fields are those of the command it decodes to. -/
theorem decode_ok {w : Word} {i : Instr} (h : decode w = .ok i) :
    rsvField w = 0 ∧
      match i with
      | .nop => opField w = 0x0 ∧ nm1Field w = 0
      | .ciphInit => opField w = 0x1 ∧ nm1Field w = 0
      | .ciphXform n => opField w = 0x2 ∧ n = countOf (nm1Field w)
      | .kdfRecover => opField w = 0x3 ∧ nm1Field w = 0
      | .keyHdr => opField w = 0x4 ∧ nm1Field w = 0
      | .csumInit => opField w = 0x5 ∧ nm1Field w = 0
      | .csumFeed n => opField w = 0x6 ∧ n = countOf (nm1Field w)
      | .sreset => opField w = 0x7 ∧ nm1Field w = 0 := by
  unfold decode at h
  split at h
  · cases h
  · rename_i hr
    refine ⟨by simpa using hr, ?_⟩
    split at h
    all_goals first
      | (obtain ⟨h0, rfl⟩ := decodeFixed_ok h
         exact ⟨BitVec.eq_of_toNat_eq (by assumption), h0⟩)
      | (cases h
         exact ⟨BitVec.eq_of_toNat_eq (by assumption), rfl⟩)
      | cases h

/-- Decoding gives well-formed commands only (R72, R73). -/
theorem wf_of_decode {w : Word} {i : Instr} (h : decode w = .ok i) : i.wf = true := by
  have hd := (decode_ok h).2
  have hn := (nm1Field w).isLt
  cases i <;> simp only [Instr.wf, decide_eq_true_eq]
  all_goals
    obtain ⟨-, rfl⟩ := hd
    exact ⟨Nat.le_add_left .., by simp only [countOf]; omega⟩

end Sys2Proof
end

