-- ==== Sys2Proof/Laws/KeyRecovery.lean ====
section
/-! SUPPORT. The arithmetic of key recovery and of the first keystream bytes, modulo 256 (R120, R146). -/

namespace Sys2Proof.Machine

/-- One round of the recovery loop is a subtraction modulo 256: the term `256*carryBit` vanishes (R121). -/
theorem recoverByte_eq_sub (lk next : Byte) : recoverByte lk next = next - rotl8 lk := by
  have hf : (lk >>> 7 ||| (lk &&& 0x7F#8) <<< 1) = rotl8 lk := rfl
  simp only [recoverByte, mod8, hf]
  generalize rotl8 lk = f
  apply BitVec.eq_of_toNat_eq
  have hn := next.isLt
  have hf := f.isLt
  simp only [BitVec.toNat_ofInt, BitVec.toNat_sub]
  omega

/-- A byte difference, masked, is a subtraction of bytes (R8). -/
theorem mod8_sub (a b : Byte) : mod8 ((a.toNat : Int) - b.toNat) = a - b := by
  apply BitVec.eq_of_toNat_eq
  have ha := a.isLt
  have hb := b.isLt
  simp only [mod8, BitVec.toNat_ofInt, BitVec.toNat_sub]
  omega

/-- The first seven rounds of the keystream: the index is the counter and the perturbation is 0 (R124). -/
theorem keystream_succ_of_lt (K : Vector Byte 8) (c : Nat) (h : c < 7) :
    keystream K (c + 1) = K[c + 1] + rotl8 (keystream K c) := by
  have h6 : c >>> 6 = 0 := by
    rw [Nat.shiftRight_eq_div_pow]
    omega
  have h7 : c % 7 = c := by omega
  simp only [keystream, h6, h7]
  apply BitVec.eq_of_toNat_eq
  simp only [mod8, BitVec.toNat_ofInt, BitVec.toNat_add]
  omega

end Sys2Proof.Machine
end

