-- ==== Sys2Proof/Laws/Step.lean ====
section
/-! SUPPORT. What a command and a step can do, said once: `exec_next` and `step_next`, which later proofs cite instead of
unfolding `exec`, `step`, `fetch` and the accesses. -/

namespace Sys2Proof.Machine

@[simp] theorem State.withFetchWord_regs (s : State) (nbits w : Nat) : (s.withFetchWord nbits w).regs = s.regs := rfl
@[simp] theorem State.withFetchWord_pending (s : State) (nbits w : Nat) :
    (s.withFetchWord nbits w).pending = commandWrite nbits w :: s.pending := rfl
@[simp] theorem State.withFetchWord_reply (s : State) (nbits w : Nat) : (s.withFetchWord nbits w).reply = s.reply := rfl

/-- The effect of a well-formed command on the registers, command by command. -/
def effectOf : Instr → Regs → Regs
  | .nop, r => r
  | .ciphInit, r => startBlock r
  | .ciphXform n, r => transform (inputBytes n r) r
  | .kdfRecover, r => loadKey (recoverKey r.raw) r
  | .keyHdr, r => loadKey Config.headerKey r
  | .csumInit, r => startChecksum r
  | .csumFeed n, r => foldBytes (inputBytes n r) r
  | .sreset, _ => Regs.reset

theorem withInput_of_ok {n : Nat} (h : countOk n) (f : List Byte → Regs → Regs) (s : State) :
    withInput n f s = .next (s.withRegs (f (inputBytes n s.regs) s.regs)) := if_pos h

theorem withInput_of_bad {n : Nat} (h : ¬ countOk n) (f : List Byte → Regs → Regs) (s : State) :
    withInput n f s = .refused (.countOutOfRange n) := if_neg h

/-- Every well-formed command completes (R39, R255), and its effect is on the registers only. -/
theorem exec_of_wf {i : Instr} (h : i.wf = true) (s : State) : exec i s = .next (s.withRegs (effectOf i s.regs)) := by
  cases i with
  | ciphXform n => exact withInput_of_ok (by simpa [Instr.wf] using h) _ _
  | csumFeed n => exact withInput_of_ok (by simpa [Instr.wf] using h) _ _
  | _ => rfl

/-- Everything a command can do: if it completes it is well formed and its effect is `effectOf`. -/
theorem exec_next {i : Instr} {s t : State} (h : exec i s = .next t) :
    i.wf = true ∧ t = s.withRegs (effectOf i s.regs) := by
  by_cases hw : i.wf = true
  · rw [exec_of_wf hw] at h
    exact ⟨hw, by injection h with h; exact h.symm⟩
  · cases i with
    | ciphXform n =>
      rw [show exec (.ciphXform n) s = _ from withInput_of_bad (by simpa [Instr.wf] using hw) transform s] at h
      cases h
    | csumFeed n =>
      rw [show exec (.csumFeed n) s = _ from withInput_of_bad (by simpa [Instr.wf] using hw) foldBytes s] at h
      cases h
    | _ => exact absurd rfl hw

/-- The offset of the access lies in the window (R50); a reset has none. -/
def inWindow : HostEvent → Prop
  | .read off _ => off < windowSize
  | .write off _ _ => off < windowSize
  | .hardReset => True

/-- The effect of a host event on the registers (R163, R164, R230). -/
def applied : HostEvent → Regs → Regs
  | .hardReset, _ => Regs.reset
  | .read off width, r => (hostRead off width r).2
  | .write off width v, r =>
    match wellFormedSlot .write off width with
    | none => raise .accessError r
    | some .cmd =>
      match decode v with
      | .ok i => effectOf i r
      | .error _ => raise .illegalCommand r
    | some sl => writeSlot sl v r

/-- What a host event returns to the host (R164). -/
def answered : HostEvent → Regs → Option Word
  | .read off width, r => some (hostRead off width r).1
  | .write _ _ _, _ => none
  | .hardReset, _ => none

/-- With no event pending the unit stays as it is (R38). -/
theorem step_idle {s : State} (h : s.pending = []) : step s = .next s := by simp [step, fetch, h]

/-- A step on an event in the window completes (R255), with this effect. -/
theorem step_of_inWindow {s : State} {e : HostEvent} {rest : List HostEvent} (h : s.pending = e :: rest)
    (hw : inWindow e) : step s = .next ⟨applied e s.regs, rest, answered e s.regs⟩ := by
  cases e with
  | hardReset => simp [step, fetch, h, finish, applied, answered, State.withRegs, State.taken]
  | read off width =>
    have hw : off < windowSize := hw
    simp [step, fetch, h, hw, applyRead, applied, answered, State.withRegs, State.taken]
  | write off width v =>
    have hw : off < windowSize := hw
    simp only [step, fetch, h, hw, if_true, applyWrite, applied, answered]
    cases wellFormedSlot .write off width with
    | none => rfl
    | some sl =>
      cases sl with
      | cmd =>
        cases hd : decode v with
        | error _ => simp [applyCommand, hd, finish, State.withRegs, State.taken]
        | ok i => simp [applyCommand, hd, exec_of_wf (wf_of_decode hd), State.withRegs, State.taken]
      | _ => rfl

/-- A step on an access outside the window is refused (R50, I14). -/
theorem step_of_outside {s : State} {e : HostEvent} {rest : List HostEvent} (h : s.pending = e :: rest)
    (hw : ¬ inWindow e) : ∃ off, windowSize ≤ off ∧ step s = .refused (.outsideWindow off) := by
  cases e with
  | hardReset => exact absurd trivial hw
  | read off width =>
    have hw : ¬ off < windowSize := hw
    exact ⟨off, by omega, by simp [step, fetch, h, hw]⟩
  | write off width v =>
    have hw : ¬ off < windowSize := hw
    exact ⟨off, by omega, by simp [step, fetch, h, hw]⟩

/-- Everything a step can do. -/
theorem step_next {s t : State} (h : step s = .next t) :
    (s.pending = [] ∧ t = s) ∨
      ∃ e rest, s.pending = e :: rest ∧ inWindow e ∧ t = ⟨applied e s.regs, rest, answered e s.regs⟩ := by
  cases hp : s.pending with
  | nil => rw [step_idle hp] at h; injection h with h; exact .inl ⟨rfl, h.symm⟩
  | cons e rest =>
    by_cases hw : inWindow e
    · rw [step_of_inWindow hp hw] at h
      injection h with h
      exact .inr ⟨e, rest, rfl, hw, h.symm⟩
    · obtain ⟨off, -, ho⟩ := step_of_outside hp hw
      rw [ho] at h
      cases h

end Sys2Proof.Machine
end

