-- ==== Sys2Proof/Laws/Sequences.lean ====
section
/-! SUPPORT. The host's loops over a byte sequence (R103, R149): feeding a stream in commands is feeding its bytes one by one. -/

namespace Sys2Proof.Machine

@[simp] theorem streamOf_nil : streamOf [] = [] := rfl

@[simp] theorem streamOf_cons (f : Word × Nat) (feeds : List (Word × Nat)) :
    streamOf (f :: feeds) = (lanes f.1).take f.2 ++ streamOf feeds := rfl

theorem countsOk_cons {f : Word × Nat} {feeds : List (Word × Nat)} :
    countsOk (f :: feeds) ↔ countOk f.2 ∧ countsOk feeds := by
  simp [countsOk]

/-- The XF loop never stops, and its outputs, CTR, LK and SIGERR are those of the whole stream, byte by byte (R149). -/
theorem xformSequence_eq {feeds : List (Word × Nat)} (h : countsOk feeds) (s : State) :
    ∃ t, xformSequence feeds s = some ((xformBytes (streamOf feeds) s.regs).1, t) ∧
      t.regs.ctr = (xformBytes (streamOf feeds) s.regs).2.ctr ∧
      t.regs.lk = (xformBytes (streamOf feeds) s.regs).2.lk ∧
      t.regs.sigerr = (xformBytes (streamOf feeds) s.regs).2.sigerr ∧ t.regs.key = s.regs.key := by
  induction feeds generalizing s with
  | nil => exact ⟨s, rfl, rfl, rfl, rfl, rfl⟩
  | cons f feeds ih =>
    obtain ⟨w, n⟩ := f
    obtain ⟨hn, hs⟩ := countsOk_cons.mp h
    let bs := (lanes w).take n
    have hlen : bs.length = n := by
      have := hn.2
      simp only [bs, List.length_take, lanes_length]
      omega
    have he : exec (.ciphXform n) (withDin w s) = .next ((withDin w s).withRegs (transform bs (withDin w s).regs)) :=
      exec_of_wf (by simpa [Instr.wf] using hn) _
    obtain ⟨h1, h2, h3, h4⟩ := xformBytes_congr bs (r := (withDin w s).regs) (r' := s.regs) rfl rfl rfl
    have h4 := h4 rfl
    obtain ⟨t, ht, hc, hl, hg, hk⟩ := ih hs ((withDin w s).withRegs (transform bs (withDin w s).regs))
    obtain ⟨g1, g2, g3, g4⟩ := xformBytes_congr (streamOf feeds) (r := transform bs (withDin w s).regs)
      (r' := (xformBytes bs s.regs).2) (by simp [withDin]) (by simpa using h2) (by simpa using h3)
    have g4 := g4 (by simpa using h4)
    refine ⟨t, ?_, ?_, ?_, ?_, ?_⟩
    · have htake : (lanes (transform bs (withDin w s).regs).dout).take n = (xformBytes bs s.regs).1 := by
        have := take_lanes_ofLanes (xformBytes bs s.regs).1 (by have := hn.2; simp [hlen]; omega)
        rw [xformBytes_length, hlen] at this
        rw [transform_dout, h1, this]
      simp only [xformSequence, he, ht, Option.map_some, State.withRegs_regs, htake, streamOf_cons, xformBytes_append, g1]
      rfl
    · rw [hc, streamOf_cons, xformBytes_append]
      exact g2
    · rw [hl, streamOf_cons, xformBytes_append]
      exact g3
    · rw [hg, streamOf_cons, xformBytes_append]
      exact g4
    · rw [hk]
      simp [withDin]

/-- Folding reads the checksum registers only (R102). -/
theorem foldBytes_congr (bs : List Byte) {r r' : Regs} (ha : r.csAcc = r'.csAcc) (hc : r.csCarry = r'.csCarry)
    (hn : r.csCnt = r'.csCnt) (hl : r.csLen = r'.csLen) :
    (foldBytes bs r).csAcc = (foldBytes bs r').csAcc ∧ (foldBytes bs r).csCarry = (foldBytes bs r').csCarry ∧
      (foldBytes bs r).csCnt = (foldBytes bs r').csCnt := by
  induction bs generalizing r r' with
  | nil => exact ⟨ha, hc, hn⟩
  | cons b bs ih =>
    by_cases h : r.csCnt.toNat + 1 < r.csLen.toNat
    · have h' : r'.csCnt.toNat + 1 < r'.csLen.toNat := by rwa [← hn, ← hl]
      rw [foldBytes_cons, foldBytes_cons, foldByte_of_room b h, foldByte_of_room b h']
      exact ih (by simp [ha, hc, hn]) (by simp [ha, hc, hn]) (by simp [hn]) hl
    · have h' : ¬ r'.csCnt.toNat + 1 < r'.csLen.toNat := by rwa [← hn, ← hl]
      rw [foldBytes_cons, foldBytes_cons, foldByte_of_full b h, foldByte_of_full b h']
      exact ih ha hc hn hl

/-- The CS loop never stops, and its checksum registers are those of the whole stream, byte by byte (R103). -/
theorem feedSequence_eq {feeds : List (Word × Nat)} (h : countsOk feeds) (s : State) :
    ∃ t, feedSequence feeds s = some t ∧
      t.regs.csAcc = (foldBytes (streamOf feeds) s.regs).csAcc ∧
      t.regs.csCarry = (foldBytes (streamOf feeds) s.regs).csCarry ∧
      t.regs.csCnt = (foldBytes (streamOf feeds) s.regs).csCnt := by
  induction feeds generalizing s with
  | nil => exact ⟨s, rfl, rfl, rfl, rfl⟩
  | cons f feeds ih =>
    obtain ⟨w, n⟩ := f
    obtain ⟨hn, hs⟩ := countsOk_cons.mp h
    let bs := (lanes w).take n
    have he : exec (.csumFeed n) (withDin w s) = .next ((withDin w s).withRegs (foldBytes bs (withDin w s).regs)) :=
      exec_of_wf (by simpa [Instr.wf] using hn) _
    obtain ⟨h1, h2, h3⟩ := foldBytes_congr bs (r := (withDin w s).regs) (r' := s.regs) rfl rfl rfl rfl
    obtain ⟨t, ht, ha, hc, hn'⟩ := ih hs ((withDin w s).withRegs (foldBytes bs (withDin w s).regs))
    obtain ⟨g1, g2, g3⟩ := foldBytes_congr (streamOf feeds) (r := foldBytes bs (withDin w s).regs)
      (r' := foldBytes bs s.regs) h1 h2 h3 (by simp [withDin])
    refine ⟨t, by simp only [feedSequence, he, ht], ?_, ?_, ?_⟩
    · rw [ha, streamOf_cons, foldBytes_append]
      exact g1
    · rw [hc, streamOf_cons, foldBytes_append]
      exact g2
    · rw [hn', streamOf_cons, foldBytes_append]
      exact g3

end Sys2Proof.Machine
end

