-- ==== Sys2Proof/Laws/Keystream.lean ====
section
/-! SUPPORT. The cipher state in sync with the keystream of R146: what a synced state outputs, and that cipher bytes keep it synced. -/

namespace Sys2Proof.Machine
open Sys2Proof.Safety

/-- In a synced state the byte used is the keystream byte at the counter, at counter 0 too (R146). -/
theorem seeded_of_synced {r : Regs} (h : keystreamSynced r) : seeded r.key r.ctr r.lk = keystream r.key r.ctr.toNat := by
  unfold seeded
  split
  · rename_i h0
    rw [h0]
    rfl
  · exact h ‹_›

/-- A cipher byte keeps the state synced, the counter's wrap included (R146, R148). -/
theorem xformByte_synced (b : Byte) {r : Regs} (h : keystreamSynced r) : keystreamSynced (xformByte b r).2 := by
  intro hc
  simp only [xformByte_regs] at hc ⊢
  rw [seeded_of_synced h, nextKeystream_eq]
  congr 1
  have hlt := r.ctr.isLt
  have hne : (r.ctr + 1).toNat ≠ 0 := fun h0 => hc (BitVec.eq_of_toNat_eq h0)
  have h1 : (1 : Word).toNat = 1 := rfl
  rw [BitVec.toNat_add, h1] at hne ⊢
  omega

theorem xformBytes_synced (bs : List Byte) {r : Regs} (h : keystreamSynced r) : keystreamSynced (xformBytes bs r).2 := by
  induction bs generalizing r with
  | nil => exact h
  | cons b bs ih => exact ih (xformByte_synced b h)

/-- A block just started is in sync (R140). -/
theorem startBlock_synced (r : Regs) : keystreamSynced (startBlock r) := fun h => absurd rfl h

/-- From CIPH_INIT, the first bytes under the key `K` are XORed with the first bytes of the keystream of `K` (R140, R146). -/
theorem xformBytes_started (bs : List Byte) (r : Regs) (h : bs.length < 2 ^ 32) :
    (xformBytes bs (startBlock r)).1 = bs.mapIdx fun c b => b ^^^ keystream r.key c := by
  apply List.ext_getElem
  · simp
  · intro i h1 h2
    have hi : i < bs.length := by simpa using h1
    have hs := seeded_of_synced (xformBytes_synced (bs.take i) (startBlock_synced r))
    simp only [xformBytes_ctr, xformBytes_key, startBlock_ctr, startBlock_key, List.length_take,
      Nat.min_eq_left (Nat.le_of_lt hi)] at hs
    have hc : (0 + BitVec.ofNat 32 i : Word).toNat = i := by
      simp
      omega
    rw [xformBytes_getElem hi, startBlock_ctr, startBlock_key, hs, hc, List.getElem_mapIdx]

end Sys2Proof.Machine
end

