-- ==== Sys2Proof/Laws/Ops.lean ====
section
/-! SUPPORT. The register window: which accesses are well formed (R53), what reading and writing a slot can do (R163, R164), and
the bits of STATUS (R36). -/

namespace Sys2Proof.Machine

@[simp] theorem slotAt_offset (sl : Slot) : slotAt sl.offset = some sl := by cases sl <;> rfl

/-- A slot stands at its own offset only (R50). -/
theorem slotAt_some {off : Nat} {sl : Slot} (h : slotAt off = some sl) : off = sl.offset := by
  unfold slotAt at h
  split at h <;> cases h <;> rfl

/-- The offsets without a slot: those that are no multiple of 4 or lie above 0x38 (R50, R53). -/
theorem slotAt_eq_none {off : Nat} : slotAt off = none ↔ ¬ (off % 4 = 0 ∧ off ≤ 0x38) := by
  constructor
  · rintro h ⟨h1, h2⟩
    interval_cases off <;> first | omega | cases h
  · intro h
    cases hs : slotAt off with
    | none => rfl
    | some sl => exact absurd (by rw [slotAt_some hs]; cases sl <;> decide) h

/-- The ill-formed reads (R53). -/
theorem wellFormedSlot_read_eq_none {off width : Nat} :
    wellFormedSlot .read off width = none ↔ ¬ (width = 4 ∧ off % 4 = 0 ∧ off ≤ 0x38) := by
  unfold wellFormedSlot
  have := @slotAt_eq_none off
  cases hs : slotAt off <;> simp_all

/-- The ill-formed writes (R53). -/
theorem wellFormedSlot_write_eq_none {off width : Nat} :
    wellFormedSlot .write off width = none ↔ ¬ (width = 4 ∧ off % 4 = 0 ∧ off ≤ 0x38 ∧ off ≠ 0x0C) := by
  unfold wellFormedSlot
  have := @slotAt_eq_none off
  cases hs : slotAt off with
  | none => simp_all
  | some sl =>
    have h2 := slotAt_some hs
    have : off % 4 = 0 ∧ off ≤ 0x38 := by
      by_contra h
      rw [slotAt_eq_none.mpr h] at hs
      cases hs
    cases sl <;> simp_all [Slot.offset]

/-- A well-formed access has width 4 and its slot's offset, and is no write to DOUT (R53). -/
theorem wellFormedSlot_some {k : AccessKind} {off width : Nat} {sl : Slot} (h : wellFormedSlot k off width = some sl) :
    width = 4 ∧ off = sl.offset ∧ ¬ (k = .write ∧ sl = .dout) := by
  unfold wellFormedSlot at h
  split at h
  · split at h
    · split at h
      · cases h
      · cases h
        exact ⟨‹_›, slotAt_some ‹_›, ‹_›⟩
    · cases h
  · cases h

/-- Everything a host read can do (R164): a well-formed one returns its slot and changes nothing, an ill-formed one returns 0 and
raises AccessError. -/
theorem hostRead_cases (off width : Nat) (r : Regs) :
    (∃ sl, wellFormedSlot .read off width = some sl ∧ hostRead off width r = (readSlot sl r, r)) ∨
      (wellFormedSlot .read off width = none ∧ hostRead off width r = (0, raise .accessError r)) := by
  unfold hostRead
  cases h : wellFormedSlot .read off width with
  | none => exact .inr ⟨rfl, rfl⟩
  | some sl => exact .inl ⟨sl, rfl, rfl⟩

/-- Writing a slot twice is writing it once (R60). -/
theorem writeSlot_writeSlot (sl : Slot) (v : Word) (r : Regs) : writeSlot sl v (writeSlot sl v r) = writeSlot sl v r := by
  cases sl <;> simp [writeSlot, clearFlags, setBankLo, setBankHi]

/-- STATUS as a number: each flag at its bit (R36). -/
theorem statusWord_toNat (r : Regs) :
    (statusWord r).toNat =
      r.ill.toNat + 2 * r.accerr.toNat + 4 * r.sigerr.toNat + 8 * (sigdone r).toNat + 16 * (cseq r).toNat := by
  unfold statusWord
  generalize sigdone r = a
  generalize cseq r = b
  generalize r.ill = c
  generalize r.accerr = d
  generalize r.sigerr = e
  revert a b c d e
  decide

/-- A write to a slot changes no flag unless it is the STATUS slot (R163). -/
theorem writeSlot_flags {sl : Slot} (h : sl ≠ .status) (v : Word) (r : Regs) :
    (writeSlot sl v r).ill = r.ill ∧ (writeSlot sl v r).accerr = r.accerr ∧ (writeSlot sl v r).sigerr = r.sigerr := by
  cases sl <;> first | exact ⟨rfl, rfl, rfl⟩ | exact absurd rfl h

end Sys2Proof.Machine
end

