-- ==== Sys2Proof/Laws/PerInstr.lean ====
section
/-! SUPPORT. The family `LegalWord`: the encoding of every well-formed command is one of the fourteen legal words (R73, R74). -/

namespace Sys2Proof.Laws

/-- The command's word stands in the list of R74. -/
def LegalWord.Statement (i : Instr) : Prop := i.wf = true → encode i ∈ legalWords

/-- The word of a data command is legal for each of its four counts. -/
theorem data_words_legal {n : Nat} (h : countOk n) :
    encode (.ciphXform n) ∈ legalWords ∧ encode (.csumFeed n) ∈ legalWords := by
  obtain ⟨h1, h4⟩ := h
  interval_cases n <;> decide

theorem LegalWord.nop : LegalWord.Statement .nop := fun _ => by decide
theorem LegalWord.ciphInit : LegalWord.Statement .ciphInit := fun _ => by decide
theorem LegalWord.ciphXform (n : Nat) : LegalWord.Statement (.ciphXform n) := fun h =>
  (data_words_legal (by simpa [Instr.wf] using h)).1
theorem LegalWord.kdfRecover : LegalWord.Statement .kdfRecover := fun _ => by decide
theorem LegalWord.keyHdr : LegalWord.Statement .keyHdr := fun _ => by decide
theorem LegalWord.csumInit : LegalWord.Statement .csumInit := fun _ => by decide
theorem LegalWord.csumFeed (n : Nat) : LegalWord.Statement (.csumFeed n) := fun h =>
  (data_words_legal (by simpa [Instr.wf] using h)).2
theorem LegalWord.sreset : LegalWord.Statement .sreset := fun _ => by decide

end Sys2Proof.Laws
end

