-- ==== Sys2Proof/Laws/Platform.lean ====
section
/-! SUPPORT. Which unit of a platform a bus address selects, and what issuing an access to one unit leaves alone (R50, R213). -/

namespace Sys2Proof.Machine

@[simp] theorem selects_iff {n : Nat} (base : Fin n → Nat) (addr : Nat) (k : Fin n) :
    selects base addr k = true ↔ base k ≤ addr ∧ addr < base k + 64 := by
  unfold selects windowOffset windowSize
  split <;> simp_all

/-- An address selects the one unit whose window it lies in, and none where no window or more than one has it. -/
theorem unitAt_eq_some {n : Nat} {base : Fin n → Nat} {addr : Nat} {k : Fin n} :
    unitAt base addr = some k ↔ selects base addr k = true ∧ ∀ j, selects base addr j = true → j = k := by
  have hmem : ∀ j, j ∈ (List.finRange n).filter (selects base addr) ↔ selects base addr j = true := by simp
  have hdup : ((List.finRange n).filter (selects base addr)).Nodup := (List.nodup_finRange n).filter _
  unfold unitAt
  constructor
  · intro h
    split at h
    · rename_i l hl
      obtain rfl := Option.some.inj h
      simp only [hl, List.mem_singleton] at hmem
      exact ⟨(hmem _).mp rfl, fun j hj => (hmem j).mpr hj⟩
    · cases h
  · rintro ⟨hk, hu⟩
    have hl : (List.finRange n).filter (selects base addr) = [k] :=
      List.perm_singleton.mp ((List.perm_ext_iff_of_nodup hdup (List.nodup_singleton k)).mpr fun j => by
        rw [hmem, List.mem_singleton]
        exact ⟨hu j, fun h => h ▸ hk⟩)
    rw [hl]

/-- An address in no window selects no unit. -/
theorem unitAt_eq_none {n : Nat} {base : Fin n → Nat} {addr : Nat} (h : ∀ k, selects base addr k ≠ true) :
    unitAt base addr = none := by
  cases hk : unitAt base addr with
  | none => rfl
  | some k => exact absurd (unitAt_eq_some.mp hk).1 (h k)

@[simp] theorem Platform.issueAt_self {n : Nat} (p : Platform n) (k : Fin n) (e : HostEvent) :
    (p.issueAt k e)[k.val] = p[k.val].issue [e] := by
  simp [Platform.issueAt]

@[simp] theorem Platform.issueAt_of_ne {n : Nat} (p : Platform n) {j k : Fin n} (e : HostEvent) (h : j ≠ k) :
    (p.issueAt k e)[j.val] = p[j.val] := by
  simp only [Platform.issueAt]
  exact Vector.getElem_set_ne k.isLt j.isLt fun he => h (Fin.ext he.symm)

end Sys2Proof.Machine
end

