-- ==== Sys2Proof/Tests/Slice0.lean ====
section
/-! SUPPORT. Tests of the model. Expected values come from the spec: the bit patterns of R71 and R74, the examples of the command
rules, and the vectors V-... of 95_test_vectors.md. The `witness_` theorems show states and operands that meet the hypotheses of
the obligation they are named after. -/

namespace Sys2Proof.Tests
open Sys2Proof Sys2Proof.Machine Sys2Proof.Safety

/-- A state with the given registers and pending events. -/
def st (r : Regs) (es : List HostEvent := []) : State := ⟨r, es, none⟩

/-- The registers after a command, where it completes. -/
def ran (i : Instr) (r : Regs) : Option Regs :=
  match exec i (st r) with
  | .next t => some t.regs
  | .fault _ => none
  | .refused _ => none

/-- The registers and the reply after one step on the event, where it completes. -/
def stepped (r : Regs) (e : HostEvent) : Option (Regs × Option Word) :=
  match step (st r [e]) with
  | .next t => some (t.regs, t.reply)
  | .fault _ => none
  | .refused _ => none

/-- The key 01..08 of vectors V-C2 and V-C4. -/
def key18 : Vector Byte 8 := #v[1, 2, 3, 4, 5, 6, 7, 8]

/-! ### Well-formedness: the check refuses each ill-formed term -/

theorem test_wf_refuses_xform_zero : (Instr.ciphXform 0).wf = false := by decide
theorem test_wf_refuses_xform_five : (Instr.ciphXform 5).wf = false := by decide
theorem test_wf_refuses_feed_zero : (Instr.csumFeed 0).wf = false := by decide
theorem test_wf_refuses_feed_five : (Instr.csumFeed 5).wf = false := by decide
theorem test_wf_accepts_counts : (Instr.ciphXform 1).wf = true ∧ (Instr.csumFeed 4).wf = true := by decide

/-! ### Decoding: words written bit by bit as R71 lays them out, `R..R nn oooo` -/

theorem test_decode_nop : decode 0b00000000000000000000000000_00_0000 = .ok .nop := by decide
theorem test_decode_ciphInit : decode 0b00000000000000000000000000_00_0001 = .ok .ciphInit := by decide
theorem test_decode_ciphXform_1 : decode 0b00000000000000000000000000_00_0010 = .ok (.ciphXform 1) := by decide
theorem test_decode_ciphXform_4 : decode 0b00000000000000000000000000_11_0010 = .ok (.ciphXform 4) := by decide
theorem test_decode_kdfRecover : decode 0b00000000000000000000000000_00_0011 = .ok .kdfRecover := by decide
theorem test_decode_keyHdr : decode 0b00000000000000000000000000_00_0100 = .ok .keyHdr := by decide
theorem test_decode_csumInit : decode 0b00000000000000000000000000_00_0101 = .ok .csumInit := by decide
theorem test_decode_csumFeed_2 : decode 0b00000000000000000000000000_01_0110 = .ok (.csumFeed 2) := by decide
theorem test_decode_sreset : decode 0b00000000000000000000000000_00_0111 = .ok .sreset := by decide
/-- V-E2, V-E3, V-E4, V-E5, V-E6. -/
theorem test_decode_illegal :
    decode 0x00000008 = .error .opcode ∧ decode 0x00000011 = .error .byteCount ∧ decode 0x00000040 = .error .reservedBits ∧
    decode 0x80000002 = .error .reservedBits ∧ decode 0x0000003F = .error .opcode := by decide
theorem test_encode_data_words : encode (.ciphXform 3) = 0x00000022 ∧ encode (.csumFeed 4) = 0x00000036 := by decide
theorem test_decodeTableWord : decodeTableWord 32 0x26 = some (.csumFeed 3) ∧ decodeTableWord 32 0x27 = none := by decide

/-! ### Commands -/

theorem test_nop : ran .nop { Regs.reset with ctr := 3, ill := true } = some { Regs.reset with ctr := 3, ill := true } := by decide
/-- The example of R140. -/
theorem test_ciphInit :
    ran .ciphInit { Regs.reset with ctr := 0x1234, lk := 0x77, sigerr := true, key := key18 } =
      some { Regs.reset with key := key18 } := by decide
/-- V-C4. -/
theorem test_ciphXform_signature :
    ran (.ciphXform 4) { Regs.reset with key := key18, din := 0x43404A4E } =
      some { Regs.reset with key := key18, din := 0x43404A4E, dout := 0x594B4E4F, ctr := 4, lk := 0x39 } := by decide
/-- V-C7, its three bytes in one command: the counter wraps, the key reseeds, the self-check fails. -/
theorem test_ciphXform_wrap :
    ran (.ciphXform 3) { Regs.reset with key := key18, ctr := 0xFFFFFFFF, lk := 0x5A } =
      some { Regs.reset with key := key18, dout := 0x0004015A, ctr := 2, lk := 0x0B, sigerr := true } := by decide
/-- V-K3. -/
theorem test_kdfRecover :
    (ran .kdfRecover { Regs.reset with raw := #v[0xCF, 0x4E, 0x4A, 0xD8, 0x4E, 0x22, 0xEB, 0xDC] }).map (fun r => r.key) =
      some #v[0x80, 0xFF, 0x01, 0x7F, 0xFE, 0x00, 0xAA, 0x55] := by decide
/-- V-K4. -/
theorem test_kdfRecover_zero :
    (ran .kdfRecover Regs.reset).map (fun r => r.key) = some #v[0x4F, 0xB0, 0xAF, 0xC3, 0x9D, 0x82, 0x05, 0xE4] := by decide
theorem test_keyHdr : ran .keyHdr Regs.reset = some { Regs.reset with key := Config.headerKey } := rfl
/-- The example of R101. -/
theorem test_csumInit :
    ran .csumInit { Regs.reset with csAcc := 0x12345678, csCarry := 1, csCnt := 2, csLen := 9 } =
      some { Regs.reset with csLen := 9 } := by decide
/-- The example of R102. -/
theorem test_csumFeed_group :
    ran (.csumFeed 4) { Regs.reset with csLen := 5, din := 0x04030201 } =
      some { Regs.reset with csLen := 5, din := 0x04030201, csAcc := 0x04030201, csCarry := 0x18100820, csCnt := 4 } := by decide
/-- V-S6 from its first complete group on: the second group is partial and the last byte is excluded. -/
theorem test_csumFeed_partial :
    ran (.csumFeed 2) { Regs.reset with csLen := 6, din := 0x0605, csAcc := 0x04030201, csCarry := 0x18100820, csCnt := 4 } =
      some { Regs.reset with csLen := 6, din := 0x0605, csAcc := 0x18100825, csCarry := 0x18100820, csCnt := 5 } := by decide
theorem test_sreset : ran .sreset { Regs.reset with key := key18, ill := true, csLen := 9 } = some Regs.reset := by decide

/-! ### Host accesses -/

/-- V-E3: CIPH_INIT with `NM1 = 1` is illegal and clears no counter. -/
theorem test_illegal_word : stepped { Regs.reset with ctr := 5 } (.write 0 4 0x11) = some ({ Regs.reset with ctr := 5, ill := true }, none) := by
  decide
/-- V-A1: a 2-byte write to CMD runs nothing. -/
theorem test_narrow_write : stepped { Regs.reset with ctr := 5 } (.write 0 2 1) = some ({ Regs.reset with ctr := 5, accerr := true }, none) := by
  decide
/-- V-A2, V-A4. -/
theorem test_bad_reads :
    stepped Regs.reset (.read 0x06 4) = some ({ Regs.reset with accerr := true }, some 0) ∧
    stepped Regs.reset (.read 0x3C 4) = some ({ Regs.reset with accerr := true }, some 0) := by decide
/-- V-A3. -/
theorem test_dout_write : stepped Regs.reset (.write 0x0C 4 0x12345678) = some ({ Regs.reset with accerr := true }, none) := by decide
/-- V-A5: STATUS 0x17 becomes 0x12. -/
theorem test_status_clear :
    statusWord { Regs.reset with ill := true, accerr := true, sigerr := true } = 0x17 ∧
    (stepped { Regs.reset with ill := true, accerr := true, sigerr := true } (.write 0x04 4 5)).map (fun p => statusWord p.1) =
      some 0x12 := by decide
/-- V-A6. -/
theorem test_lk_write : stepped Regs.reset (.write 0x24 4 0xFFFFFF5A) = some ({ Regs.reset with lk := 0x5A }, none) := by decide
/-- V-A7. -/
theorem test_reset_reads :
    stepped Regs.reset (.read 0x04 4) = some (Regs.reset, some 0x10) ∧ stepped Regs.reset (.read 0 4) = some (Regs.reset, some 0) := by
  decide
/-- The example of R163, and the packed read of R164. -/
theorem test_key_lo :
    stepped Regs.reset (.write 0x10 4 0x04030201) = some ({ Regs.reset with key := #v[1, 2, 3, 4, 0, 0, 0, 0] }, none) ∧
    stepped { Regs.reset with key := key18 } (.read 0x14 4) = some ({ Regs.reset with key := key18 }, some 0x08070605) := by decide
theorem test_hardReset : stepped { Regs.reset with key := key18, ctr := 7, ill := true } .hardReset = some (Regs.reset, none) := by decide
theorem test_fetched_word_runs :
    step ((st { Regs.reset with ctr := 9 }).withFetchWord 32 1) = .next (st Regs.reset) := rfl
theorem test_windowOffset : windowOffset 0x1000 0x103F = some 0x3F ∧ windowOffset 0x1000 0x1040 = none ∧ windowOffset 0x1000 0xFFF = none := by
  decide

/-- Adjacent windows route to their own units, overlapping ones to none (log entry 5). -/
theorem test_unitAt :
    unitAt (n := 2) (fun k => 0x1000 + 64 * k.val) 0x103F = some 0 ∧ unitAt (n := 2) (fun k => 0x1000 + 64 * k.val) 0x1040 = some 1 ∧
    unitAt (n := 2) (fun k => 0x1000 + 4 * k.val) 0x1004 = none := by decide

/-! ### The host's assembly text (R76 to R78) -/

theorem test_assemble_lines :
    assembleText "ldkey 01,02,03,04,05,06,07,08 ; the key\n\n  XF 0x43404A4E, 4\nACC R 0x06, 4" =
      some [.write 0x10 4 0x04030201, .write 0x14 4 0x08070605, .write 0x08 4 0x43404A4E, .write 0x00 4 0x32, .read 6 4] := by decide
theorem test_assemble_refuses_count : assembleText "CSUM_FEED 5" = none := by decide
theorem test_boot_duties :
    preparedFor Prepared.nothing [.write 0 4 4, .write 0 4 1, .write 0 4 2] = true ∧
    preparedFor Prepared.nothing [.write 0 4 1, .write 0 4 2] = false := by decide

/-- R242 and R107: V-C8 ends with SIGERR and L3-3 with CSEQ 0. -/
theorem test_verdicts :
    blockVerdict .leaf { Regs.reset with sigerr := true } = some .invalidKey ∧
    blockVerdict .header { Regs.reset with sigerr := true } = some .invalidSignature ∧
    checksumVerdict { Regs.reset with csAcc := 0x20170E25, csExp := 0x20170E26 } = some .checksumMismatch := by decide

/-! ### Witnesses: the hypotheses of each obligation can be met -/

theorem witness_DecodeOfEncodeIsTheCommand : (Instr.ciphXform 1).wf = true ∧ (Instr.csumFeed 4).wf = true := by decide
theorem witness_LegalWordIsItsEncoding : decode 0x32 = .ok (.ciphXform 4) := by decide
theorem witness_DecodeFollowsOpcodeMap :
    64 ≤ (0x40 : Word).toNat ∧ (0x3F : Word).toNat < 64 ∧ 8 ≤ (0x3F : Word).toNat % 16 ∧ 8 ≤ (0x08 : Word).toNat % 16 ∧
    ((0x30 : Word).toNat < 64 ∧ (0x30 : Word).toNat % 16 = 0) ∧ ((0x01 : Word).toNat < 64 ∧ (0x01 : Word).toNat % 16 = 1) ∧
    ((0x32 : Word).toNat < 64 ∧ (0x32 : Word).toNat % 16 = 2) ∧ ((0x03 : Word).toNat < 64 ∧ (0x03 : Word).toNat % 16 = 3) ∧
    ((0x04 : Word).toNat < 64 ∧ (0x04 : Word).toNat % 16 = 4) ∧ ((0x15 : Word).toNat < 64 ∧ (0x15 : Word).toNat % 16 = 5) ∧
    ((0x06 : Word).toNat < 64 ∧ (0x06 : Word).toNat % 16 = 6) ∧ ((0x37 : Word).toNat < 64 ∧ (0x37 : Word).toNat % 16 = 7) := by
  decide
theorem witness_IllegalWordsOnlyRaiseIllegalCommand :
    (st Regs.reset [.write 0 4 0x40]).pending = .write 0x00 4 0x40 :: [] ∧ decode 0x40 = .error .reservedBits := by decide
theorem witness_CountOutsideOneToFourIsRefused : ¬ (1 ≤ 0 ∧ 0 ≤ 4) ∧ ¬ (1 ≤ 5 ∧ 5 ≤ 4) := by decide
theorem witness_CommandWriteRunsDecodedCommand :
    ((st Regs.reset [.write 0 4 0x36]).pending = .write 0x00 4 0x36 :: [] ∧ decode 0x36 = .ok (.csumFeed 4)) ∧
    ((st Regs.reset [.write 0 4 8]).pending = .write 0x00 4 8 :: [] ∧ decode 8 = .error .opcode) ∧
    (st Regs.reset [.read 0 4]).pending = .read 0x00 4 :: [] := by decide
theorem witness_IllFormedAccessOnlySetsAccerr :
    (0x3F < 64 ∧ ¬ (1 = 4 ∧ 0x3F % 4 = 0 ∧ 0x3F ≤ 0x38)) ∧ (0x3C < 64 ∧ ¬ (4 = 4 ∧ 0x3C % 4 = 0 ∧ 0x3C ≤ 0x38)) ∧
    (0 < 64 ∧ ¬ (2 = 4 ∧ 0 % 4 = 0 ∧ 0 ≤ 0x38 ∧ 0 ≠ 0x0C)) ∧ (0x0C < 64 ∧ ¬ (4 = 4 ∧ 0x0C % 4 = 0 ∧ 0x0C ≤ 0x38 ∧ 0x0C ≠ 0x0C)) ∧
    (st Regs.reset [.read 0x3F 1]).pending = .read 0x3F 1 :: [] ∧ (st Regs.reset [.write 0x0C 4 1]).pending = .write 0x0C 4 1 :: [] := by
  decide
theorem witness_HostReadReturnsSlotValue :
    ((0x38, 7) ∈ ([(0x00, 0), (0x38, { Regs.reset with csExp := 7 }.csExp)] : List (Nat × Word))) ∧
    (st { Regs.reset with csExp := 7 } [.read 0x38 4]).pending = .read 0x38 4 :: [] ∧
    (st Regs.reset [.read 0x00 4]).pending = .read 0x00 4 :: [] ∧
    0x3C < 64 ∧ ¬ (4 = 4 ∧ 0x3C % 4 = 0 ∧ 0x3C ≤ 0x38) ∧ (st Regs.reset [.read 0x3C 4]).pending = .read 0x3C 4 :: [] := by decide
theorem witness_HostWriteStoresSlot :
    (st Regs.reset [.write 0x04 4 7]).pending = .write 0x04 4 7 :: [] ∧ (st Regs.reset [.write 0x38 4 7]).pending = .write 0x38 4 7 :: [] ∧
    (st Regs.reset [.write 0x00 4 7]).pending = .write 0x00 4 7 :: [] ∧
    0x3C < 64 ∧ ¬ (4 = 4 ∧ 0x3C % 4 = 0 ∧ 0x3C ≤ 0x38 ∧ 0x3C ≠ 0x0C) ∧
    (st Regs.reset [.write 0x3C 4 7]).pending = .write 0x3C 4 7 :: [] := by decide
theorem witness_ReadReturnsLastWrite :
    0x24 ∈ [0x08, 0x10, 0x14, 0x18, 0x1C, 0x20, 0x24, 0x28, 0x2C, 0x30, 0x34, 0x38] ∧
    (st Regs.reset [.write 0x24 4 0x15A, .read 0x24 4]).pending = .write 0x24 4 0x15A :: .read 0x24 4 :: [] := by decide
theorem witness_RepeatedAccessIsIdempotentButCommandsAreNot :
    (∃ off v, off % 4 = 0 ∧ off ≤ 0x38 ∧ off ≠ 0x00 ∧ off ≠ 0x0C ∧ HostEvent.write 0x38 4 1 = .write off 4 v) ∧
    (∃ off, off % 4 = 0 ∧ off ≤ 0x38 ∧ HostEvent.read 0x0C 4 = .read off 4) ∧ countOk 4 ∧
    (st Regs.reset [.write 0 4 0x32, .write 0 4 0x32]).pending =
      .write 0x00 4 (encode (.ciphXform 4)) :: .write 0x00 4 (encode (.ciphXform 4)) :: [] :=
  ⟨⟨0x38, 1, by decide⟩, ⟨0x0C, by decide⟩, by decide, by decide⟩
theorem witness_WindowShowsEveryField : ∀ off, (hostRead off 4 Regs.reset).1 = (hostRead off 4 Regs.reset).1 := fun _ => rfl
theorem witness_EveryAccessCompletesInOneStep :
    63 < 64 ∧ (st Regs.reset [.read 63 1]).pending = .read 63 1 :: [] ∧ (st Regs.reset).pending = [] := by decide
theorem witness_OnlyWindowAddressesSelectTheUnit :
    64 ≤ 64 ∧ (st Regs.reset [.read 64 4]).pending = .read 64 4 :: [] ∧ (st Regs.reset [.write 64 4 1]).pending = .write 64 4 1 :: [] := by
  decide
theorem witness_FlagsStaySetUntilCleared :
    ∃ t, step (st { Regs.reset with ill := true, accerr := true, sigerr := true } [.write 0 4 0x32]) = .next t ∧
      HostEvent.write 0 4 0x32 ≠ .hardReset ∧ HostEvent.write 0 4 0x32 ≠ .write 0x00 4 0x00000007 ∧
      HostEvent.write 0 4 0x32 ≠ .write 0x00 4 0x00000001 ∧
      (∀ v, HostEvent.write 0 4 0x32 = .write 0x04 4 v → v.getLsbD 0 = false ∧ v.getLsbD 1 = false ∧ v.getLsbD 2 = false) :=
  ⟨_, rfl, by decide, by decide, by decide, fun _ h => by cases h⟩
theorem witness_FlagsAreSetByTheirCauseOnly :
    (∃ t, step (st Regs.reset [.write 0 4 8]) = .next t ∧ t.regs.ill = true) ∧
    (∃ t, step (st Regs.reset [.read 0x3C 4]) = .next t ∧ t.regs.accerr = true) ∧
    (∃ t, step (st Regs.reset [.write 0 4 2]) = .next t ∧ t.regs.sigerr = true) :=
  ⟨⟨_, rfl, by decide⟩, ⟨_, rfl, by decide⟩, ⟨_, rfl, by decide⟩⟩
theorem witness_NopLeavesEverything : (0x40 : Word).toNat % 16 = 0 ∧ (0x40 : Word) ≠ 0x00000000 := by decide
theorem witness_SresetResetsEveryField : (0x17 : Word).toNat % 16 = 7 ∧ (0x17 : Word) ≠ 0x00000007 := by decide
theorem witness_CsumInitStartsAChecksum : (0x15 : Word).toNat % 16 = 5 ∧ (0x15 : Word) ≠ 0x00000005 := by decide
theorem witness_CiphXformTransformsLanesInOrder : (1 ≤ 1 ∧ 1 ≤ 4) ∧ (1 ≤ 4 ∧ 4 ≤ 4) := by decide
theorem witness_CsumFeedFoldsLanesInOrder : (1 ≤ 1 ∧ 1 ≤ 4) ∧ (1 ≤ 4 ∧ 4 ≤ 4) := by decide
theorem witness_CommandsWriteOnlyTheirRegisters : ∃ t, exec .csumInit (st { Regs.reset with csAcc := 5 }) = .next t := ⟨_, rfl⟩
theorem witness_LanesBeyondTheCountAreNotRead : countOk 3 ∧ ∀ i, i < 3 → lane 0xAA404A4E i = lane 0x43404A4E i := by decide
theorem witness_CipherAndChecksumCommute : countOk 1 ∧ countOk 4 := by decide
theorem witness_KeyLoadAndBlockStartCommute : Instr.keyHdr = .kdfRecover ∨ Instr.keyHdr = .keyHdr := by decide
/-- V-S5 and V-S11, split 1 + 4. -/
theorem witness_FeedingARangeGivesTheSourceChecksum :
    exec .csumInit (st { Regs.reset with csLen := 5 }) = .next (st { Regs.reset with csLen := 5 }) ∧
    countsOk [(0x01, 1), (0x05040302, 4)] ∧ (5 : Word).toNat ≤ [1, 2, 3, 4, (0xEE : Byte)].length ∧
    (5 : Word).toNat - 1 ≤ (streamOf [(0x01, 1), (0x05040302, 4)]).length ∧
    (streamOf [(0x01, 1), (0x05040302, 4)]).take ((5 : Word).toNat - 1) = [1, 2, 3, 4, (0xEE : Byte)].take ((5 : Word).toNat - 1) :=
  ⟨rfl, by simp [countsOk, countOk], by decide, by decide, by decide⟩
theorem witness_LastByteOfRangeIsExcluded :
    exec .csumInit (st { Regs.reset with csLen := 2 }) = .next (st { Regs.reset with csLen := 2 }) ∧ countsOk [(0x0201, 2)] ∧ countsOk [(0xEE01, 2)] ∧ (2 : Word).toNat ≠ 0 ∧
    streamOf [(0xEE01, 2)] = (streamOf [(0x0201, 2)]).set ((2 : Word).toNat - 1) 0xEE ∧
    (∃ t, feedSequence [(0x0201, 2)] (st { Regs.reset with csLen := 2 }) = some t) ∧
    (∃ t, feedSequence [(0xEE01, 2)] (st { Regs.reset with csLen := 2 }) = some t) :=
  ⟨rfl, by simp [countsOk, countOk], by simp [countsOk, countOk], by decide, by decide, ⟨_, rfl⟩, ⟨_, rfl⟩⟩
theorem witness_ChecksumIgnoresSplitAndOtherState :
    countsOk [(0x0201, 2)] ∧ countsOk [(0x01, 1), (0x02, 1)] ∧ streamOf [(0x0201, 2)] = streamOf [(0x01, 1), (0x02, 1)] ∧
    exec .csumInit (st { Regs.reset with csLen := 9, ctr := 5 }) = .next (st { Regs.reset with csLen := 9, ctr := 5 }) ∧
    exec .csumInit (st { Regs.reset with csLen := 9, ill := true }) = .next (st { Regs.reset with csLen := 9, ill := true }) :=
  ⟨by simp [countsOk, countOk], by simp [countsOk, countOk], by decide, rfl, rfl⟩
theorem witness_GroupAddsItsLittleEndianWord :
    countOk 4 ∧ countOk 1 ∧ (8 : Word).toNat % 4 = 0 ∧ (8 : Word).toNat + 4 < (13 : Word).toNat := by decide
theorem witness_RecoveryInvertsTheKeystream :
    ∀ c : Fin 8, (st { Regs.reset with raw := #v[0x4E, 0x4A, 0x40, 0x43, 0x76, 0x58, 0xB2, 0x99] }).regs.raw[c.val] =
      sig[c.val] ^^^ keystream key18 c.val := by decide
/-- V-K2: the signature's first eight bytes encrypted under 01..08. -/
theorem witness_EncryptedSignatureGivesItsKeyBack :
    exec .ciphInit (st { Regs.reset with key := key18 }) = .next (st { Regs.reset with key := key18 }) ∧
    (∃ t, xformSequence [(0x594B4E4F, 4), (0x6E45204F, 4)] (st { Regs.reset with key := key18 }) =
      some ([0x4E, 0x4A, 0x40, 0x43, 0x76, 0x58, 0xB2, 0x99], t)) ∧
    (st { Regs.reset with raw := #v[0x4E, 0x4A, 0x40, 0x43, 0x76, 0x58, 0xB2, 0x99] }).regs.raw.toList =
      [0x4E, 0x4A, 0x40, 0x43, 0x76, 0x58, 0xB2, 0x99] := ⟨rfl, ⟨_, rfl⟩, rfl⟩
/-- The first eight bytes of a header: the signature's, encrypted under the header key. -/
def headerStart : Vector Byte 8 := Vector.ofFn fun c : Fin 8 => sig[c.val] ^^^ keystream Config.headerKey c.val
theorem witness_HeaderKeyIsRecoveredFromAHeader :
    ∃ a s0 t, exec .keyHdr (st Regs.reset) = .next a ∧ exec .ciphInit a = .next s0 ∧
      xformSequence [(bankLo headerStart, 4), (bankHi headerStart, 4)] s0 = some (sig.toList.take 8, t) ∧
      (st { Regs.reset with raw := headerStart }).regs.raw.toList = lanes (bankLo headerStart) ++ lanes (bankHi headerStart) := by
  have hl : lanes (bankLo headerStart) ++ lanes (bankHi headerStart) = headerStart.toList := by
    simp [bankLo, bankHi]
    rfl
  obtain ⟨t, ht, -⟩ := xformSequence_eq (feeds := [(bankLo headerStart, 4), (bankHi headerStart, 4)])
    (by simp [countsOk, countOk]) (st (startBlock { Regs.reset with key := Config.headerKey }))
  refine ⟨_, _, t, rfl, rfl, ht.trans ?_, hl.symm⟩
  have hs : streamOf [(bankLo headerStart, 4), (bankHi headerStart, 4)] = headerStart.toList := by
    rw [← hl]
    rfl
  rw [hs]
  have hx := xformBytes_started headerStart.toList { Regs.reset with key := Config.headerKey } (by simp)
  have hk : (headerStart.toList.mapIdx fun c b => b ^^^ keystream Config.headerKey c) = sig.toList.take 8 := by
    apply List.ext_getElem
    · simp
    · intro i h1 h2
      have hi : i < 8 := by simpa using h1
      simp [headerStart]
  exact congrArg (fun l => some (l, t)) (hx.trans hk)
theorem witness_KeystreamStartIsABijection :
    recoverKeyRef (Vector.ofFn fun c : Fin 8 => sig[c.val] ^^^ (#v[1, 4, 11, 26, 57, 120, 247, (247 : Byte)])[c.val]) = key18.toList := by
  decide
theorem witness_RecoveredKeyPassesItsOwnBytes :
    ∃ a b, exec .kdfRecover (st Regs.reset) = .next a ∧ exec .ciphInit a = .next b := ⟨_, _, rfl, rfl⟩
theorem witness_OutputsAreInputsXorKeystream :
    exec .ciphInit (st { Regs.reset with key := key18 }) = .next (st { Regs.reset with key := key18 }) ∧
    countsOk [(0, 4), (0, 1)] ∧ (streamOf [(0, 4), (0, 1)]).length < 2 ^ 32 :=
  ⟨rfl, by simp [countsOk, countOk], by decide⟩
theorem witness_TransformTwiceGivesInputBack :
    exec .ciphInit (st { Regs.reset with key := key18, ctr := 9 }) = .next (st { Regs.reset with key := key18 }) ∧
    (∃ t, xformSequence [(0x2211, 2)] (st { Regs.reset with key := key18 }) = some (streamOf [(0x10, 1), (0x26, 1)], t)) ∧
    countsOk [(0x2211, 2)] ∧ countsOk [(0x10, 1), (0x26, 1)] :=
  ⟨rfl, ⟨_, rfl⟩, by simp [countsOk, countOk], by simp [countsOk, countOk]⟩
theorem witness_SplitIntoCommandsDoesNotMatter :
    exec .ciphInit (st { Regs.reset with ctr := 9 }) = .next (st Regs.reset) ∧ countsOk [(0x030201, 3), (0x04, 1)] ∧ countsOk [(0x04030201, 4)] ∧
    streamOf [(0x030201, 3), (0x04, 1)] = streamOf [(0x04030201, 4)] :=
  ⟨rfl, by simp [countsOk, countOk], by simp [countsOk, countOk], by decide⟩
theorem witness_SelfCheckComparesWithTheSignature :
    exec .ciphInit (st { Regs.reset with key := key18, ctr := 9 }) = .next (st { Regs.reset with key := key18 }) ∧ countsOk [(0x43404A4E, 4), (0x99B25876, 4), (0xD8A89492, 4), (0x861CDC23, 4)] ∧
    (streamOf [(0x43404A4E, 4), (0x99B25876, 4), (0xD8A89492, 4), (0x861CDC23, 4)]).length < 2 ^ 32 :=
  ⟨rfl, by simp [countsOk, countOk], by decide⟩
/-- The leaf of program L3-5: the signature and "AB" under the key 80 FF 01 7F FE 00 AA 55. -/
theorem witness_GenuineLeafDecryptsToItsPayload :
    16 + [0x41, (0x42 : Byte)].length < 2 ^ 32 ∧
    countsOk [(0xD84A4ECF, 4), (0xDCEB224E, 4), (0x526BBB07, 4), (0x1CD65B30, 4), (0x000008A4, 2)] ∧
    streamOf [(0xD84A4ECF, 4), (0xDCEB224E, 4), (0x526BBB07, 4), (0x1CD65B30, 4), (0x000008A4, 2)] =
      (sig.toList ++ [0x41, 0x42]).mapIdx
        (fun c p => p ^^^ keystream #v[0x80, 0xFF, 0x01, 0x7F, 0xFE, 0x00, 0xAA, 0x55] c) ∧
    (st { Regs.reset with raw := #v[0xCF, 0x4E, 0x4A, 0xD8, 0x4E, 0x22, 0xEB, 0xDC] }).regs.raw.toList =
      (streamOf [(0xD84A4ECF, 4), (0xDCEB224E, 4), (0x526BBB07, 4), (0x1CD65B30, 4), (0x000008A4, 2)]).take 8 ∧
    ∃ a b, exec .kdfRecover (st { Regs.reset with raw := #v[0xCF, 0x4E, 0x4A, 0xD8, 0x4E, 0x22, 0xEB, 0xDC] }) = .next a ∧
      exec .ciphInit a = .next b :=
  ⟨by decide, by simp [countsOk, countOk], by decide, by decide, _, _, rfl, rfl⟩
theorem witness_CounterWrapReseeds : (st { Regs.reset with ctr := 0xFFFFFFFF }).regs.ctr = 0xFFFFFFFF := by decide
theorem witness_SavedBlockResumesOnAnyUnit :
    ∃ s s' : State, s.regs.ctr = 5 ∧
      s'.pending = [.write 0x20 4 (readSlot .ctr s.regs), .write 0x24 4 (readSlot .lk s.regs),
        .write 0x10 4 (readSlot .keyLo s.regs), .write 0x14 4 (readSlot .keyHi s.regs)] ∧ countsOk [(0, 4)] :=
  ⟨st { Regs.reset with ctr := 5, lk := 0x78, key := key18 },
    st Regs.reset [.write 0x20 4 5, .write 0x24 4 0x78, .write 0x10 4 0x04030201, .write 0x14 4 0x08070605],
    rfl, by decide, by simp [countsOk, countOk]⟩
/-- V-C2 at counter 2, with a pending CIPH_XFORM. -/
theorem witness_EveryStepKeepsKeystreamInSync :
    (keystreamSynced { Regs.reset with key := key18, ctr := 2, lk := 0x0B } ∧
      ∀ e ∈ [HostEvent.write 0 4 0x32], keepsKeystream e = true) ∧
    ∃ t, step (st { Regs.reset with key := key18, ctr := 2, lk := 0x0B } [.write 0 4 0x32]) = .next t :=
  ⟨⟨fun _ => by decide, by decide⟩, ⟨_, rfl⟩⟩
theorem witness_EveryStepKeepsCountBounded :
    (countBounded { Regs.reset with csLen := 5, csCnt := 4 } ∧ ∀ e ∈ [HostEvent.write 0 4 0x36], keepsCount e = true) ∧
    ∃ t, step (st { Regs.reset with csLen := 5, csCnt := 4 } [.write 0 4 0x36]) = .next t :=
  ⟨⟨by unfold countBounded; decide, by decide⟩, ⟨_, rfl⟩⟩
theorem witness_EveryStepKeepsCarryAtGroupEnds :
    (carryFollowsGroups { Regs.reset with csLen := 9, csCnt := 4, csAcc := 0x04030201, csCarry := 0x18100820 } ∧
      ∀ e ∈ [HostEvent.write 0 4 0x36], keepsFold e = true) ∧
    ∃ t, step (st { Regs.reset with csLen := 9, csCnt := 4, csAcc := 0x04030201, csCarry := 0x18100820 } [.write 0 4 0x36]) = .next t :=
  ⟨⟨by unfold carryFollowsGroups; decide, by decide⟩, ⟨_, rfl⟩⟩
theorem witness_ContinuityKeepsTheBlock :
    keepsBlock (.write 0 4 0x36) = true ∧ (∀ n, commandOf (.write 0 4 0x36) ≠ some (.ciphXform n)) ∧
    ∃ t, step (st Regs.reset [.write 0 4 0x36]) = .next t :=
  ⟨by decide, fun _ h => (by
    rw [show commandOf (.write 0 4 0x36) = some (.csumFeed 4) from by decide] at h
    cases h), ⟨_, rfl⟩⟩
theorem witness_ResetGivesTheListedValues : (st { Regs.reset with ctr := 1 } [.hardReset]).pending = .hardReset :: [] := by decide
theorem witness_InstancesShareNothing :
    ∃ p' : Platform 2, Platform.stepAt (n := 2) #v[st Regs.reset [.read 0 4], st Regs.reset] 0 = .next p' := ⟨_, rfl⟩
/-- Two adjacent windows: their last and first address, and the addresses before and after both. -/
theorem witness_EachUnitIsReachedThroughItsOwnWindow :
    let base : Fin 2 → Nat := fun k => 0x1000 + 64 * k.val
    (∀ i j : Fin 2, i ≠ j → base i + 64 ≤ base j ∨ base j + 64 ≤ base i) ∧
    (0x103F = base 0 + 0x3F ∧ 0x3F < 64) ∧ (0x1040 = base 1 + 0 ∧ 0 < 64) ∧
    (∀ k : Fin 2, 0xFFF < base k ∨ base k + 64 ≤ 0xFFF) ∧ (∀ k : Fin 2, 0x1080 < base k ∨ base k + 64 ≤ 0x1080) := by decide
theorem witness_MnemonicsExpandToCommandWrites : (1 ≤ 1 ∧ 1 ≤ 4) ∧ (1 ≤ 4 ∧ 4 ≤ 4) ∧ ¬ (1 ≤ 0 ∧ 0 ≤ 4) ∧ ¬ (1 ≤ 5 ∧ 5 ≤ 4) := by decide
theorem witness_PseudoInstructionsExpandAsListed : 0xFFFFFFFF < 2 ^ 32 ∧ countOk 1 ∧ countOk 4 := by decide
theorem witness_XfLineRunsTheCipherOnItsWord :
    ∃ es, expandLine (.xf 0x43404A4E 4) = some es ∧ (st Regs.reset es).pending = es ++ [] := ⟨_, rfl, rfl⟩

end Sys2Proof.Tests
end

section
/-! PROOFS. A platform of several units (R6, R213): a unit's step is its own, and a bus access reaches the one unit whose window has
the address. -/

namespace Sys2Proof.Machine

/-- A unit's step completes on the platform exactly when it completes on the unit, and the platform then holds the unit's next state
in its place. -/
theorem Platform.stepAt_eq_next {n : Nat} {p p' : Platform n} {k : Fin n} :
    p.stepAt k = .next p' ↔ ∃ s, step p[k.val] = .next s ∧ p' = p.set k.val s := by
  unfold Platform.stepAt
  cases step p[k.val] with
  | next s => simp [eq_comm]
  | fault f => simp
  | refused r => simp

/-- The offsets of a window are the distances below 64 from its base (R3, R50). -/
theorem windowOffset_eq_some {base addr off : Nat} : windowOffset base addr = some off ↔ addr = base + off ∧ off < 64 := by
  unfold windowOffset windowSize
  split
  · rw [Option.some_inj]
    omega
  · simp only [reduceCtorEq, false_iff]
    omega

/-- Where windows share no address, an address in the window of unit `k` selects unit `k` (R213). -/
theorem unitAt_of_disjoint {n : Nat} {base : Fin n → Nat} {addr : Nat} {k : Fin n}
    (hdisj : ∀ i j : Fin n, i ≠ j → base i + 64 ≤ base j ∨ base j + 64 ≤ base i)
    (hk : base k ≤ addr ∧ addr < base k + 64) : unitAt base addr = some k := by
  refine unitAt_eq_some.mpr ⟨(selects_iff base addr k).mpr hk, fun j hj => ?_⟩
  have hj' := (selects_iff base addr j).mp hj
  by_contra hne
  have := hdisj j k hne
  omega

section
variable {n : Nat} {base : Fin n → Nat} {addr : Nat} (p : Platform n) (width : Nat) (v : Word)

theorem Platform.busRead_of_unitAt {k : Fin n} {off : Nat} (hu : unitAt base addr = some k)
    (ho : windowOffset (base k) addr = some off) : p.busRead base addr width = some (p.issueAt k (.read off width)) := by
  simp [Platform.busRead, Machine.busRead, hu, ho]

theorem Platform.busWrite_of_unitAt {k : Fin n} {off : Nat} (hu : unitAt base addr = some k)
    (ho : windowOffset (base k) addr = some off) : p.busWrite base addr width v = some (p.issueAt k (.write off width v)) := by
  simp [Platform.busWrite, Machine.busWrite, hu, ho]

theorem Platform.busRead_of_no_unit (hu : unitAt base addr = none) : p.busRead base addr width = none := by
  simp [Platform.busRead, hu]

theorem Platform.busWrite_of_no_unit (hu : unitAt base addr = none) : p.busWrite base addr width v = none := by
  simp [Platform.busWrite, hu]

end

end Sys2Proof.Machine

namespace Sys2Proof.Proofs
open Sys2Proof Sys2Proof.Machine

/-- Settles O54, from what a completed step of one unit makes of the platform. -/
theorem instancesShareNothing : Obligations.InstancesShareNothing := by
  intro n p p' k h
  obtain ⟨s, hs, rfl⟩ := Platform.stepAt_eq_next.mp h
  refine ⟨?_, fun j hj => ?_⟩
  · rw [hs, Vector.getElem_set_self]
  · exact Vector.getElem_set_ne k.isLt j.isLt fun he => hj (Fin.ext he.symm)

/-- Settles O58: disjoint windows leave one unit to select, and the access is issued to it at the offset in its window. -/
theorem eachUnitIsReachedThroughItsOwnWindow : Obligations.EachUnitIsReachedThroughItsOwnWindow := by
  intro n base p addr width v hdisj
  refine ⟨fun k off haddr hoff => ?inWindow, fun hout => ?inNoWindow⟩
  case inWindow =>
    have hu : unitAt base addr = some k := unitAt_of_disjoint hdisj (by omega)
    have ho : windowOffset (base k) addr = some off := windowOffset_eq_some.mpr ⟨haddr, hoff⟩
    exact ⟨_, _, p.busRead_of_unitAt width hu ho, p.busWrite_of_unitAt width v hu ho,
      p.issueAt_self k _, p.issueAt_self k _,
      fun j hj => ⟨p.issueAt_of_ne _ hj, p.issueAt_of_ne _ hj⟩⟩
  case inNoWindow =>
    have hu : unitAt base addr = none := unitAt_eq_none fun k hk => by
      have := (selects_iff base addr k).mp hk
      have := hout k
      omega
    exact ⟨p.busRead_of_no_unit width hu, p.busWrite_of_no_unit width v hu⟩

end Sys2Proof.Proofs
end

section
/-! PROOFS. What one host event can do to the registers, said once (`eventEffect_applied`), and from it the rule that proves a
property of the registers an invariant of `step`. -/

namespace Sys2Proof.Machine
open Sys2Proof.Safety

/-- The accesses that R53 calls ill formed. -/
def illFormed : HostEvent → Prop
  | .read off width => wellFormedSlot .read off width = none
  | .write off width _ => wellFormedSlot .write off width = none
  | .hardReset => False

/-- The ill-formed accesses by width and offset (R53). -/
theorem illFormed_iff {e : HostEvent} :
    illFormed e ↔
      (∃ off width, e = .read off width ∧ ¬ (width = 4 ∧ off % 4 = 0 ∧ off ≤ 0x38)) ∨
        (∃ off width v, e = .write off width v ∧ ¬ (width = 4 ∧ off % 4 = 0 ∧ off ≤ 0x38 ∧ off ≠ 0x0C)) := by
  cases e with
  | read off width => simp [illFormed, wellFormedSlot_read_eq_none]
  | write off width v => simp [illFormed, wellFormedSlot_write_eq_none]
  | hardReset => simp [illFormed]

/-- The registers `r'` that a host event can leave of the registers `r`, case by case (R163, R164, R204, R230). -/
inductive EventEffect (e : HostEvent) (r : Regs) : Regs → Prop where
  | reset (he : e = .hardReset) : EventEffect e r Regs.reset
  | read {off width : Nat} (he : e = .read off width) : EventEffect e r r
  | accessError (he : illFormed e) : EventEffect e r (raise .accessError r)
  | illegalCommand {w : Word} {x : Illegal} (he : e = .write 0x00 4 w) (hd : decode w = .error x) :
      EventEffect e r (raise .illegalCommand r)
  | command {w : Word} {i : Instr} (he : e = .write 0x00 4 w) (hd : decode w = .ok i) : EventEffect e r (effectOf i r)
  | store {sl : Slot} {v : Word} (he : e = .write sl.offset 4 v) (hcmd : sl ≠ .cmd) (hdout : sl ≠ .dout) :
      EventEffect e r (writeSlot sl v r)

/-- A well-formed write to a slot reaches the slot; only DOUT is not written (R53). -/
theorem wellFormedSlot_write_offset {sl : Slot} (h : sl ≠ .dout) : wellFormedSlot .write sl.offset 4 = some sl := by
  simp [wellFormedSlot, h]

/-- A well-formed write to any slot but CMD stores to that slot (R163). -/
theorem applied_store {sl : Slot} (hcmd : sl ≠ .cmd) (hdout : sl ≠ .dout) (v : Word) (r : Regs) :
    applied (.write sl.offset 4 v) r = writeSlot sl v r := by
  simp only [applied, wellFormedSlot_write_offset hdout]

/-- Every host event has one of the effects of `EventEffect`. -/
theorem eventEffect_applied (e : HostEvent) (r : Regs) : EventEffect e r (applied e r) := by
  cases e with
  | hardReset => exact .reset rfl
  | read off width =>
    rcases hostRead_cases off width r with ⟨sl, -, h⟩ | ⟨hn, h⟩
    · rw [applied, h]
      exact .read rfl
    · rw [applied, h]
      exact .accessError hn
  | write off width v =>
    cases hw : wellFormedSlot .write off width with
    | none =>
      simp only [applied, hw]
      exact .accessError hw
    | some sl =>
      obtain ⟨rfl, rfl, hk⟩ := wellFormedSlot_some hw
      have hdout : sl ≠ .dout := fun h => hk ⟨rfl, h⟩
      by_cases hcmd : sl = .cmd
      · subst hcmd
        cases hd : decode v with
        | ok i =>
          simp only [applied, hw, hd]
          exact .command rfl hd
        | error x =>
          simp only [applied, hw, hd]
          exact .illegalCommand rfl hd
      · rw [applied_store hcmd hdout]
        exact .store rfl hcmd hdout

/-- What is left after a completed step: the effect of the oldest event on the registers, and the events behind it. -/
theorem step_next_of_pending {s t : State} {e : HostEvent} {rest : List HostEvent} (hp : s.pending = e :: rest)
    (h : step s = .next t) : EventEffect e s.regs t.regs ∧ t.pending = rest := by
  rcases step_next h with ⟨hnil, -⟩ | ⟨e', rest', hp', -, rfl⟩
  · simp [hp] at hnil
  · obtain ⟨rfl, rfl⟩ := List.cons.inj (hp.symm.trans hp')
    exact ⟨eventEffect_applied e s.regs, rfl⟩

/-- A property of the registers is an invariant of `step`, as long as the pending events are `allowed`, once it holds after reset and is
kept by raising a condition, by every allowed command and by every allowed store. -/
theorem step_keeps {P : Regs → Prop} {allowed : HostEvent → Bool} (reset : P Regs.reset)
    (raised : ∀ c r, P r → P (raise c r))
    (command : ∀ e i r, allowed e = true → commandOf e = some i → P r → P (effectOf i r))
    (store : ∀ e sl v r, allowed e = true → slotWritten e = some sl → P r → P (writeSlot sl v r)) (s t : State)
    (hs : P s.regs ∧ ∀ e ∈ s.pending, allowed e = true) (h : step s = .next t) :
    P t.regs ∧ ∀ e ∈ t.pending, allowed e = true := by
  obtain ⟨hP, hall⟩ := hs
  cases hp : s.pending with
  | nil =>
    rw [step_idle hp] at h
    cases h
    exact ⟨hP, hall⟩
  | cons e rest =>
    obtain ⟨heff, hrest⟩ := step_next_of_pending hp h
    rw [hp] at hall
    have he : allowed e = true := hall e List.mem_cons_self
    refine ⟨?_, fun e' he' => hall e' (List.mem_cons_of_mem e (hrest ▸ he'))⟩
    generalize t.regs = r' at heff ⊢
    cases heff with
    | reset => exact reset
    | read => exact hP
    | accessError => exact raised _ _ hP
    | illegalCommand => exact raised _ _ hP
    | command hw hd => exact command e _ _ he (by simp [hw, commandOf, wellFormedSlot, slotAt, hd, Except.toOption]) hP
    | store hw _ hdout => exact store e _ _ _ he (by simp [hw, slotWritten, wellFormedSlot_write_offset hdout]) hP

end Sys2Proof.Machine
end

section
/-! PROOFS. The three invariants of `step`: LK along the keystream (R146), CS_CNT within CS_LEN (R31), CS_CARRY at group ends (R30).
Each is a relation between a few registers, so a change elsewhere keeps it. -/

namespace Sys2Proof.Machine
open Sys2Proof.Safety

/-- A store elsewhere than to the key, CTR and LK leaves them alone (R163). -/
theorem writeSlot_cipher_frame {sl : Slot} (h : sl ∉ [.ctr, .lk, .keyLo, .keyHi]) (v : Word) (r : Regs) :
    (writeSlot sl v r).key = r.key ∧ (writeSlot sl v r).ctr = r.ctr ∧ (writeSlot sl v r).lk = r.lk := by
  cases sl with
  | ctr | lk | keyLo | keyHi => simp at h
  | _ => exact ⟨rfl, rfl, rfl⟩

/-- A store elsewhere than to CS_CNT and CS_LEN leaves them alone (R163). -/
theorem writeSlot_count_frame {sl : Slot} (h : sl ∉ [.csCnt, .csLen]) (v : Word) (r : Regs) :
    (writeSlot sl v r).csCnt = r.csCnt ∧ (writeSlot sl v r).csLen = r.csLen := by
  cases sl with
  | csCnt | csLen => simp at h
  | _ => exact ⟨rfl, rfl⟩

/-- A store elsewhere than to CS_ACC, CS_CARRY and CS_CNT leaves them alone (R163). -/
theorem writeSlot_fold_frame {sl : Slot} (h : sl ∉ [.csAcc, .csCarry, .csCnt]) (v : Word) (r : Regs) :
    (writeSlot sl v r).csAcc = r.csAcc ∧ (writeSlot sl v r).csCarry = r.csCarry ∧ (writeSlot sl v r).csCnt = r.csCnt := by
  cases sl with
  | csAcc | csCarry | csCnt => simp at h
  | _ => exact ⟨rfl, rfl, rfl⟩

theorem keystreamSynced_congr {r r' : Regs} (h : keystreamSynced r)
    (hf : r'.key = r.key ∧ r'.ctr = r.ctr ∧ r'.lk = r.lk) : keystreamSynced r' := by
  obtain ⟨hk, hc, hl⟩ := hf
  simpa [keystreamSynced, hk, hc, hl] using h

theorem countBounded_congr {r r' : Regs} (h : countBounded r) (hf : r'.csCnt = r.csCnt ∧ r'.csLen = r.csLen) :
    countBounded r' := by
  obtain ⟨hn, hl⟩ := hf
  simpa [countBounded, hn, hl] using h

theorem carryFollowsGroups_congr {r r' : Regs} (h : carryFollowsGroups r)
    (hf : r'.csAcc = r.csAcc ∧ r'.csCarry = r.csCarry ∧ r'.csCnt = r.csCnt) : carryFollowsGroups r' := by
  obtain ⟨ha, hc, hn⟩ := hf
  simpa [carryFollowsGroups, ha, hc, hn] using h

theorem keystreamSynced_reset : keystreamSynced Regs.reset := fun h => absurd rfl h

theorem countBounded_of_zero {r : Regs} (h : r.csCnt = 0) : countBounded r := by simp [countBounded, h]

theorem carryFollowsGroups_of_zero {r : Regs} (ha : r.csAcc = 0) (hc : r.csCarry = 0) : carryFollowsGroups r := by
  refine ⟨fun _ => ⟨ha, hc⟩, fun _ => ?_⟩
  rw [ha, hc]
  decide

/-- Every command but the two that load a key keeps LK on the keystream (R146). -/
theorem effectOf_synced {i : Instr} (hi : i ∉ [.kdfRecover, .keyHdr]) {r : Regs} (h : keystreamSynced r) :
    keystreamSynced (effectOf i r) := by
  cases i with
  | kdfRecover | keyHdr => simp at hi
  | sreset => exact keystreamSynced_reset
  | ciphInit => exact startBlock_synced r
  | ciphXform n => exact keystreamSynced_congr (xformBytes_synced (inputBytes n r) h) (by simp [effectOf])
  | nop | csumInit | csumFeed _ => exact keystreamSynced_congr h (by simp [effectOf])

/-- A byte is folded only while it leaves the count within the range (R31, R102). -/
theorem foldByte_countBounded (b : Byte) {r : Regs} (h : countBounded r) : countBounded (foldByte r b) := by
  by_cases hroom : r.csCnt.toNat + 1 < r.csLen.toNat
  · unfold countBounded
    rw [foldByte_csCnt_toNat b hroom, foldByte_csLen]
    omega
  · rwa [foldByte_of_full b hroom]

/-- A folded byte that completes a group rotates the sum into the carry, and after any other the count is no group's end (R30, R102). -/
theorem foldByte_carryFollowsGroups (b : Byte) {r : Regs} (h : carryFollowsGroups r) :
    carryFollowsGroups (foldByte r b) := by
  by_cases hroom : r.csCnt.toNat + 1 < r.csLen.toNat
  · unfold carryFollowsGroups
    rw [foldByte_csCnt_toNat b hroom]
    refine ⟨fun h0 => absurd h0 (by omega), fun hend => ?_⟩
    have hlast : r.csCnt.toNat % 4 = 3 := by omega
    simp [foldByte_of_room b hroom, hlast]
  · rwa [foldByte_of_full b hroom]

/-- What every folded byte keeps, CSUM_FEED keeps. -/
theorem foldBytes_keeps {P : Regs → Prop} (hbyte : ∀ b r, P r → P (foldByte r b)) (bs : List Byte) {r : Regs} (h : P r) :
    P (foldBytes bs r) := by
  induction bs generalizing r with
  | nil => exact h
  | cons b bs ih => exact ih (hbyte b r h)

theorem effectOf_countBounded (i : Instr) {r : Regs} (h : countBounded r) : countBounded (effectOf i r) := by
  cases i with
  | csumInit | sreset => exact countBounded_of_zero rfl
  | csumFeed n => exact foldBytes_keeps (fun b _ => foldByte_countBounded b) _ h
  | nop | ciphInit | ciphXform _ | kdfRecover | keyHdr => exact countBounded_congr h (by simp [effectOf])

theorem effectOf_carryFollowsGroups (i : Instr) {r : Regs} (h : carryFollowsGroups r) :
    carryFollowsGroups (effectOf i r) := by
  cases i with
  | csumInit | sreset => exact carryFollowsGroups_of_zero rfl rfl
  | csumFeed n => exact foldBytes_keeps (fun b _ => foldByte_carryFollowsGroups b) _ h
  | nop | ciphInit | ciphXform _ | kdfRecover | keyHdr => exact carryFollowsGroups_congr h (by simp [effectOf])

end Sys2Proof.Machine

namespace Sys2Proof.Proofs
open Sys2Proof Sys2Proof.Machine Sys2Proof.Safety

/-- Settles O47: the allowed events store to no register of the relation, and every command they run keeps it. -/
theorem everyStepKeepsKeystreamInSync : Obligations.EveryStepKeepsKeystreamInSync := by
  refine step_keeps keystreamSynced_reset (fun c r h => keystreamSynced_congr h (by simp)) ?command ?store
  case command =>
    intro e i r he hi h
    exact effectOf_synced (by simp_all [keepsKeystream]) h
  case store =>
    intro e sl v r he hsl h
    exact keystreamSynced_congr h (writeSlot_cipher_frame (by simp_all [keepsKeystream]) v r)

/-- Settles O48: every command keeps the bound, and the allowed events store to neither side of it. -/
theorem everyStepKeepsCountBounded : Obligations.EveryStepKeepsCountBounded := by
  refine step_keeps (countBounded_of_zero rfl) (fun c r h => countBounded_congr h (by simp))
    (fun _ i _ _ _ h => effectOf_countBounded i h) ?store
  case store =>
    intro e sl v r he hsl h
    exact countBounded_congr h (writeSlot_count_frame (by simp_all [keepsCount]) v r)

/-- Settles O49: every command keeps the relation, and the allowed events store to none of its registers. -/
theorem everyStepKeepsCarryAtGroupEnds : Obligations.EveryStepKeepsCarryAtGroupEnds := by
  refine step_keeps (carryFollowsGroups_of_zero rfl rfl) (fun c r h => carryFollowsGroups_congr h (by simp))
    (fun _ i _ _ _ h => effectOf_carryFollowsGroups i h) ?store
  case store =>
    intro e sl v r he hsl h
    exact carryFollowsGroups_congr h (writeSlot_fold_frame (by simp_all [keepsFold]) v r)

end Sys2Proof.Proofs
end

section
/-! PROOFS. The register window and the flags: a read returns what was stored (R163, R164), and what sets and clears each flag (R34). -/

namespace Sys2Proof

/-- A legal word is the word of the command it decodes to (R73, R74). -/
theorem encode_of_decode {w : Word} {i : Instr} (h : decode w = .ok i) : encode i = w := by
  obtain ⟨hrsv, hfields⟩ := decode_ok h
  have hw := toNat_of_fields w
  apply BitVec.eq_of_toNat_eq
  cases i with
  | ciphXform n | csumFeed n =>
    obtain ⟨hop, rfl⟩ := hfields
    simp [encode, commandWord_toNat, countOf, hw, hrsv, hop]
  | _ =>
    obtain ⟨hop, hnm1⟩ := hfields
    simp [encode, commandWord_toNat, hw, hrsv, hop, hnm1]

end Sys2Proof

namespace Sys2Proof.Machine

/-- The twelve slots that keep the word written to them: all but CMD, STATUS and DOUT (R50). -/
def readWriteSlots : List Slot :=
  [.din, .keyLo, .keyHi, .rawLo, .rawHi, .ctr, .lk, .csAcc, .csCarry, .csCnt, .csLen, .csExp]

theorem readWriteSlots_offsets :
    readWriteSlots.map Slot.offset = [0x08, 0x10, 0x14, 0x18, 0x1C, 0x20, 0x24, 0x28, 0x2C, 0x30, 0x34, 0x38] := rfl

theorem Slot.offset_lt_windowSize (sl : Slot) : sl.offset < windowSize := by cases sl <;> decide

@[simp] theorem bankLo_setBankLo (b : Vector Byte 8) (v : Word) : bankLo (setBankLo b v) = v := by
  simp [bankLo, setBankLo]

@[simp] theorem bankHi_setBankHi (b : Vector Byte 8) (v : Word) : bankHi (setBankHi b v) = v := by
  simp [bankHi, setBankHi]

/-- A read-write slot reads as the word stored to it; LK holds its low byte only (R28, R163, R164). -/
theorem readSlot_writeSlot {sl : Slot} (h : sl ∈ readWriteSlots) (v : Word) (r : Regs) :
    readSlot sl (writeSlot sl v r) = if sl.offset = 0x24 then BitVec.ofNat 32 (v.toNat % 256) else v := by
  cases sl with
  | cmd | status | dout => simp [readWriteSlots] at h
  | lk =>
    apply BitVec.eq_of_toNat_eq
    simp [readSlot, writeSlot, Slot.offset]
  | _ => simp [readSlot, writeSlot, Slot.offset]

/-- A well-formed read returns its slot and changes nothing (R164). -/
theorem hostRead_offset (sl : Slot) (r : Regs) : hostRead sl.offset 4 r = (readSlot sl r, r) := by
  simp [hostRead, wellFormedSlot]

/-- Every command but SRESET leaves the interface flags alone (R34). -/
theorem effectOf_interface_flags {i : Instr} (hi : i ≠ .sreset) (r : Regs) :
    (effectOf i r).ill = r.ill ∧ (effectOf i r).accerr = r.accerr := by
  cases i with
  | sreset => exact absurd rfl hi
  | _ => simp [effectOf]

/-- Every command but SRESET and the two that run the cipher leaves SIGERR alone (R34). -/
theorem effectOf_sigerr {i : Instr} (hs : i ≠ .sreset) (hc : i ≠ .ciphInit) (hx : ∀ n, i ≠ .ciphXform n) (r : Regs) :
    (effectOf i r).sigerr = r.sigerr := by
  cases i with
  | sreset => exact absurd rfl hs
  | ciphInit => exact absurd rfl hc
  | ciphXform n => exact absurd rfl (hx n)
  | _ => simp [effectOf]

/-- SIGERR is sticky but for SRESET and CIPH_INIT (R34, R144). -/
theorem effectOf_sigerr_of {i : Instr} (hs : i ≠ .sreset) (hc : i ≠ .ciphInit) {r : Regs} (h : r.sigerr = true) :
    (effectOf i r).sigerr = true := by
  by_cases hx : ∃ n, i = .ciphXform n
  · obtain ⟨n, rfl⟩ := hx
    simpa [effectOf] using xformBytes_sigerr_of (inputBytes n r) h
  · rw [effectOf_sigerr hs hc (fun n hn => hx ⟨n, hn⟩), h]

/-- SRESET and CIPH_INIT clear SIGERR, and of the other commands only CIPH_XFORM sets it (R34). -/
theorem ciphXform_of_effectOf_sigerr {i : Instr} {r : Regs} (h0 : r.sigerr = false) (h1 : (effectOf i r).sigerr = true) :
    ∃ n, i = .ciphXform n := by
  by_contra hx
  by_cases hs : i = .sreset
  · simp [hs, effectOf, Regs.reset] at h1
  by_cases hc : i = .ciphInit
  · simp [hc, effectOf] at h1
  rw [effectOf_sigerr hs hc (fun n hn => hx ⟨n, hn⟩), h0] at h1
  cases h1

/-- A store leaves a flag as it is or, at STATUS, clears it when its bit is written 1 (R35, R163). -/
theorem writeSlot_flags_cases (sl : Slot) (v : Word) (r : Regs) :
    sl = .status ∧ writeSlot sl v r = clearFlags v r ∨
      (writeSlot sl v r).ill = r.ill ∧ (writeSlot sl v r).accerr = r.accerr ∧ (writeSlot sl v r).sigerr = r.sigerr := by
  by_cases h : sl = .status
  · subst h
    exact .inl ⟨rfl, rfl⟩
  · exact .inr (writeSlot_flags h v r)

end Sys2Proof.Machine

namespace Sys2Proof.Proofs
open Sys2Proof Sys2Proof.Machine

/-- Settles O11: both accesses reach the same slot, and a read-write slot reads as the word stored. -/
theorem readReturnsLastWrite : Obligations.ReadReturnsLastWrite := by
  intro s off v rest hoff hp
  obtain ⟨sl, hrw, rfl⟩ := List.mem_map.mp (readWriteSlots_offsets ▸ hoff)
  have hcmd : sl ≠ .cmd := by rintro rfl; simp [readWriteSlots] at hrw
  have hdout : sl ≠ .dout := by rintro rfl; simp [readWriteSlots] at hrw
  refine ⟨_, _, step_of_inWindow hp sl.offset_lt_windowSize, step_of_inWindow rfl sl.offset_lt_windowSize, ?_, rfl, ?_⟩
  · simp [applied, hostRead_offset]
  · rw [applied_store hcmd hdout]
    simp only [answered, hostRead_offset, readSlot_writeSlot hrw]

/-- Settles O16: of the effects an event can have, only those excluded clear a flag. -/
theorem flagsStaySetUntilCleared : Obligations.FlagsStaySetUntilCleared := by
  intro s t e rest hp hstep hreset hsreset
  obtain ⟨heff, -⟩ := step_next_of_pending hp hstep
  generalize t.regs = r' at heff ⊢
  cases heff with
  | reset he => exact absurd he hreset
  | read | accessError | illegalCommand => simp_all
  | @command w i he hd =>
    have hs : i ≠ .sreset := by
      rintro rfl
      exact hsreset (by rw [he, ← encode_of_decode hd]; rfl)
    obtain ⟨hill, hacc⟩ := effectOf_interface_flags hs s.regs
    refine ⟨fun h _ => hill.trans h, fun h _ => hacc.trans h, fun h _ hinit => effectOf_sigerr_of hs ?_ h⟩
    rintro rfl
    exact hinit (by rw [he, ← encode_of_decode hd]; rfl)
  | @store sl v he =>
    rcases writeSlot_flags_cases sl v s.regs with ⟨rfl, hclear⟩ | ⟨hill, hacc, hsig⟩
    · rw [hclear]
      exact ⟨fun h hv => by rw [clearFlags_ill, hv v he, h]; rfl, fun h hv => by rw [clearFlags_accerr, hv v he, h]; rfl,
        fun h hv _ => by rw [clearFlags_sigerr, hv v he, h]; rfl⟩
    · exact ⟨fun h _ => hill.trans h, fun h _ => hacc.trans h, fun h _ _ => hsig.trans h⟩

/-- Settles O17: of the effects an event can have, each flag is set by the one that its condition names. -/
theorem flagsAreSetByTheirCauseOnly : Obligations.FlagsAreSetByTheirCauseOnly := by
  intro s t e rest hp hstep
  obtain ⟨heff, -⟩ := step_next_of_pending hp hstep
  generalize t.regs = r' at heff ⊢
  cases heff with
  | reset => simp [Regs.reset]
  | read => simp_all
  | accessError he => exact ⟨by simp_all, fun _ _ => illFormed_iff.mp he, by simp_all⟩
  | illegalCommand he hd => exact ⟨fun _ _ => ⟨_, _, he, hd⟩, by simp_all, by simp_all⟩
  | @command w i he hd =>
    have hsig : s.regs.sigerr = false → (effectOf i s.regs).sigerr = true →
        ∃ w n, e = .write 0x00 4 w ∧ decode w = .ok (.ciphXform n) := fun h0 h1 => by
      obtain ⟨n, rfl⟩ := ciphXform_of_effectOf_sigerr h0 h1
      exact ⟨w, n, he, hd⟩
    by_cases hs : i = .sreset
    · exact ⟨by simp [hs, effectOf, Regs.reset], by simp [hs, effectOf, Regs.reset], hsig⟩
    · obtain ⟨hill, hacc⟩ := effectOf_interface_flags hs s.regs
      exact ⟨by simp_all, by simp_all, hsig⟩
  | @store sl v he =>
    rcases writeSlot_flags_cases sl v s.regs with ⟨-, hclear⟩ | ⟨hill, hacc, hsig⟩
    · rw [hclear]
      exact ⟨by simp_all, by simp_all, by simp_all⟩
    · exact ⟨by simp_all, by simp_all, by simp_all⟩

end Sys2Proof.Proofs
end

section
/-! PROOFS. What the commands write (R21 to R34), and that the cipher and the checksum do not meet (R252). -/

namespace Sys2Proof.Machine

/-- The cipher reads and writes none of the checksum registers, and the checksum none of the cipher's (R252). -/
theorem foldBytes_transform (bs cs : List Byte) (r : Regs) :
    foldBytes cs (transform bs r) = transform bs (foldBytes cs r) := by
  obtain ⟨hacc, hcarry, hcnt⟩ := foldBytes_congr cs (r := transform bs r) (r' := r) (by simp) (by simp) (by simp) (by simp)
  obtain ⟨hout, hctr, hlk, hsig⟩ := xformBytes_congr bs (r := foldBytes cs r) (r' := r) (by simp) (by simp) (by simp)
  rw [foldBytes_frame cs (transform bs r), transform_frame bs (foldBytes cs r), hacc, hcarry, hcnt, hout, hctr, hlk,
    hsig (by simp), transform_frame bs r, foldBytes_frame cs r]

end Sys2Proof.Machine

namespace Sys2Proof.Proofs
open Sys2Proof Sys2Proof.Machine

/-- Settles O26, command by command, from what each effect does to each field. -/
theorem commandsWriteOnlyTheirRegisters : Obligations.CommandsWriteOnlyTheirRegisters := by
  intro i s t h
  obtain ⟨-, rfl⟩ := exec_next h
  refine ⟨rfl, rfl, ?_⟩
  cases i with
  | sreset => exact .inl rfl
  | _ => exact .inr (by simp [effectOf])

/-- Settles O28: either command leaves DIN, and with it the other's input, as it is, and the two effects commute. -/
theorem cipherAndChecksumCommute : Obligations.CipherAndChecksumCommute := by
  intro s n m hn hm
  have hx : (Instr.ciphXform n).wf = true := by simpa [Instr.wf] using hn
  have hf : (Instr.csumFeed m).wf = true := by simpa [Instr.wf] using hm
  have hcomm : effectOf (.ciphXform n) (effectOf (.csumFeed m) s.regs) =
      effectOf (.csumFeed m) (effectOf (.ciphXform n) s.regs) := by
    simp [effectOf, inputBytes, foldBytes_transform]
  refine ⟨_, _, _, exec_of_wf hx s, exec_of_wf hf _, exec_of_wf hf s, ?_⟩
  rw [exec_of_wf hx]
  simp [hcomm]

end Sys2Proof.Proofs
end

section
/-! PROOFS. Laws of the cipher from CIPH_INIT and from a restored block: key recovery end to end (R124), the self-check (R145) and
the resumed block (R152). -/

namespace Sys2Proof.Machine

/-- Known plaintext gives the keystream: unmasking with the signature what it masked (R120). -/
theorem derived_of_masked {raw : Vector Byte 8} {j : Fin 8} {x : Byte} (h : raw[j.val] = sig[j.val] ^^^ x) :
    derived raw j = x := by
  rw [derived, h, ← BitVec.xor_assoc, BitVec.xor_self, BitVec.zero_xor]

/-- One round of the recovery loop on two neighbouring keystream bytes gives the key byte between them (R124). -/
theorem recoverByte_keystream (K : Vector Byte 8) (c : Nat) (h : c < 7) :
    recoverByte (keystream K c) (keystream K (c + 1)) = K[c + 1] := by
  rw [recoverByte_eq_sub, keystream_succ_of_lt K c h, BitVec.add_sub_cancel]

/-- From the signature masked with the keystream of `K`, the recovered key is `K` (R124). -/
theorem recoverKey_of_masked_signature {K raw : Vector Byte 8}
    (h : ∀ c : Fin 8, raw[c.val] = sig[c.val] ^^^ keystream K c.val) : recoverKey raw = K := by
  have hd : ∀ j : Fin 8, derived raw j = keystream K j.val := fun j => derived_of_masked (h j)
  have hround := recoverByte_keystream K
  apply Vector.ext
  intro i hi
  simp only [recoverKey, hd]
  interval_cases i
  · rfl
  all_goals exact hround _ (by omega)

/-- CIPH_INIT completes in the started block, with everything else as it was (R140). -/
theorem exec_ciphInit_next {s t : State} (h : exec .ciphInit s = .next t) : t = s.withRegs (startBlock s.regs) :=
  (exec_next h).2

/-- From CIPH_INIT the counter counts the bytes, up to its wrap (R27). -/
theorem xformBytes_started_ctr (bs : List Byte) (r : Regs) (h : bs.length < 2 ^ 32) :
    (xformBytes bs (startBlock r)).2.ctr.toNat = bs.length := by
  simpa [xformBytes_ctr] using h

/-- The self-check of a counter below 16 compares with the signature's byte (R144). -/
theorem sigMismatch_ofNat {i : Nat} (h : i < 16) (o : Byte) : sigMismatch (BitVec.ofNat 32 i) o = (o != sig[i]) := by
  have hi : (BitVec.ofNat 32 i).toNat = i := by simp; omega
  simp [sigMismatch, hi, h]

/-- From the sixteenth byte on nothing is compared, up to the wrap of the counter (R144). -/
theorem sigMismatch_ofNat_of_le {i : Nat} (h : 16 ≤ i) (hi : i < 2 ^ 32) (o : Byte) :
    sigMismatch (BitVec.ofNat 32 i) o = false := by
  have hi : (BitVec.ofNat 32 i).toNat = i := by simp; omega
  simp [sigMismatch, hi, Nat.not_lt.mpr h]

/-- Two lists agree on their common start within the length of the second exactly when they agree place by place there. -/
theorem take_length_eq_take_length_iff {α : Type} (xs ys : List α) :
    xs.take ys.length = ys.take xs.length ↔ ∀ i, (hx : i < xs.length) → (hy : i < ys.length) → xs[i] = ys[i] := by
  constructor
  · intro h i hx hy
    have h1 : (xs.take ys.length)[i]? = (ys.take xs.length)[i]? := by rw [h]
    simpa [List.getElem?_take, hx, hy] using h1
  · intro h
    apply List.ext_getElem
    · simp [Nat.min_comm]
    · intro i h1 h2
      simp only [List.getElem_take]
      exact h i _ _

/-- From CIPH_INIT, SIGERR stays 0 exactly when the outputs among the first sixteen are the signature's bytes (R144, R145). -/
theorem xformBytes_started_sigerr (bs : List Byte) (r : Regs) (h : bs.length < 2 ^ 32) :
    (xformBytes bs (startBlock r)).2.sigerr = false ↔
      (xformBytes bs (startBlock r)).1.take 16 = sig.toList.take (xformBytes bs (startBlock r)).1.length := by
  have hlen := xformBytes_length bs (startBlock r)
  refine Iff.trans ?_ (take_length_eq_take_length_iff _ sig.toList).symm
  rw [← Bool.not_eq_true, xformBytes_sigerr]
  simp only [startBlock_sigerr, startBlock_ctr, BitVec.ofNat_eq_ofNat, BitVec.zero_add, Bool.false_eq_true, false_or, not_exists,
    Bool.not_eq_true]
  refine ⟨fun hall i hi hi16 => ?_, fun hall i hi => ?_⟩
  · have hi16 : i < 16 := hi16
    have := hall i (hlen ▸ hi)
    rw [sigMismatch_ofNat hi16] at this
    exact bne_eq_false_iff_eq.mp this
  · by_cases hi16 : i < 16
    · rw [sigMismatch_ofNat hi16]
      exact bne_eq_false_iff_eq.mpr (hall i (hlen ▸ hi) hi16)
    · exact sigMismatch_ofNat_of_le (Nat.not_lt.mp hi16) (hi.trans h) _

/-- Writing both halves of a bank back gives the bank, whatever stood there (R24, R40). -/
theorem setBankHi_setBankLo (b k : Vector Byte 8) : setBankHi (setBankLo b (bankLo k)) (bankHi k) = k := by
  apply Vector.ext
  intro i hi
  simp only [setBankHi, setBankLo, bankLo, bankHi, lane_zero_le32, lane_one_le32, lane_two_le32, lane_three_le32]
  interval_cases i <;> rfl

/-- A run over pending events in the window completes, and applies them in order (R62, R255). -/
theorem run_of_inWindow {es : List HostEvent} (hw : ∀ e ∈ es, inWindow e) {s : State} (hp : s.pending = es) :
    ∃ u : State, Host.Core.run core es.length s = .next u ∧ u.regs = es.foldl (fun r e => applied e r) s.regs := by
  induction es generalizing s with
  | nil => exact ⟨s, rfl, rfl⟩
  | cons e es ih =>
    obtain ⟨he, hes⟩ := List.forall_mem_cons.mp hw
    have hstep : core.step s = .next ⟨applied e s.regs, es, answered e s.regs⟩ := step_of_inWindow hp he
    obtain ⟨u, hrun, hu⟩ := ih hes (s := ⟨applied e s.regs, es, answered e s.regs⟩) rfl
    refine ⟨u, ?_, hu⟩
    simp only [List.length_cons, Host.Core.run, hstep]
    exact hrun

/-- The host's writes that restore a saved block (R40, R152). -/
def restoreWrites (r : Regs) : List HostEvent :=
  [.write 0x20 4 (readSlot .ctr r), .write 0x24 4 (readSlot .lk r), .write 0x10 4 (readSlot .keyLo r),
    .write 0x14 4 (readSlot .keyHi r)]

/-- Restoring a saved block puts its key, CTR and LK in any unit (R40, R152). -/
theorem restoreWrites_applied (r r' : Regs) :
    ((restoreWrites r).foldl (fun r e => applied e r) r').key = r.key ∧
      ((restoreWrites r).foldl (fun r e => applied e r) r').ctr = r.ctr ∧
      ((restoreWrites r).foldl (fun r e => applied e r) r').lk = r.lk := by
  have hstore : (restoreWrites r).foldl (fun r e => applied e r) r' =
      writeSlot .keyHi (bankHi r.key) (writeSlot .keyLo (bankLo r.key)
        (writeSlot .lk (r.lk.setWidth 32) (writeSlot .ctr r.ctr r'))) := rfl
  rw [hstore]
  refine ⟨setBankHi_setBankLo r'.key r.key, rfl, ?_⟩
  simp [writeSlot]

end Sys2Proof.Machine

namespace Sys2Proof.Proofs
open Sys2Proof Sys2Proof.Machine

/-- Settles O53, byte by byte. -/
theorem signatureIsTheAsciiString : Obligations.SignatureIsTheAsciiString := by
  unfold Obligations.SignatureIsTheAsciiString
  decide

/-- Settles O36: the outputs are the signature masked with the key's keystream, and recovery from that gives the key. -/
theorem encryptedSignatureGivesItsKeyBack : Obligations.EncryptedSignatureGivesItsKeyBack := by
  intro s s0 t u outs hinit hrun hraw
  obtain rfl := exec_ciphInit_next hinit
  obtain ⟨t', hrun', -⟩ := xformSequence_eq (feeds := [(0x594B4E4F, 4), (0x6E45204F, 4)]) (by simp [countsOk, countOk])
    (s.withRegs (startBlock s.regs))
  have hstream : streamOf [(0x594B4E4F, 4), (0x6E45204F, 4)] = sig.toList.take 8 := by decide
  have houts : u.regs.raw.toList = (sig.toList.take 8).mapIdx fun c b => b ^^^ keystream s.regs.key c := by
    rw [hrun, hstream, State.withRegs_regs, xformBytes_started _ _ (by simp)] at hrun'
    cases hrun'
    exact hraw
  have hmasked : ∀ c : Fin 8, u.regs.raw[c.val] = sig[c.val] ^^^ keystream s.regs.key c.val := fun c => by
    have hc := List.getElem_of_eq houts (i := c.val) (by simp)
    simpa using hc
  exact (exec_of_wf rfl u).trans (by rw [effectOf, recoverKey_of_masked_signature hmasked]; rfl)

/-- Settles O43: the counter counts the outputs, and the self-check compares the first sixteen of them. -/
theorem selfCheckComparesWithTheSignature : Obligations.SelfCheckComparesWithTheSignature := by
  intro s s0 feeds hinit hok hlen
  obtain rfl := exec_ciphInit_next hinit
  obtain ⟨t, hrun, hctr, -, hsig, -⟩ := xformSequence_eq hok (s.withRegs (startBlock s.regs))
  rw [State.withRegs_regs] at hrun hctr hsig
  refine ⟨_, t, hrun, ?_, ?_⟩
  · rw [sigdone, hctr, xformBytes_started_ctr _ _ hlen, xformBytes_length, decide_eq_true_iff]
  · rw [hsig]
    exact xformBytes_started_sigerr _ _ hlen

/-- Settles O46: the four writes restore all that the cipher reads of a block. -/
theorem savedBlockResumesOnAnyUnit : Obligations.SavedBlockResumesOnAnyUnit := by
  intro s s' hp
  have hwindow : ∀ e ∈ restoreWrites s.regs, inWindow e := by simp [restoreWrites, inWindow, windowSize]
  obtain ⟨u, hrun, hu⟩ := run_of_inWindow hwindow hp
  obtain ⟨hkey, hctr, hlk⟩ := restoreWrites_applied s.regs s'.regs
  refine ⟨u, hrun, fun feeds hok => ?_⟩
  obtain ⟨t, ht, htc, htl, -⟩ := xformSequence_eq hok s
  obtain ⟨t', ht', htc', htl', -⟩ := xformSequence_eq hok u
  obtain ⟨hout, hc, hl, -⟩ := xformBytes_congr (streamOf feeds) (r := s.regs) (r' := u.regs)
    (hu ▸ hkey.symm) (hu ▸ hctr.symm) (hu ▸ hlk.symm)
  exact ⟨_, t, t', ht, hout ▸ ht', by rw [htc, htc', hc], by rw [htl, htl', hl]⟩

end Sys2Proof.Proofs
end

section
/-! PROOFS. The register window access by access: the unit answers inside its 64 bytes only (R50), an ill-formed access sets ACCERR
and does nothing else (R54, R201), and repeating an access (R60). -/

namespace Sys2Proof

/-- The word of CIPH_XFORM N is legal for every count, and decodes to it (R74). -/
theorem decode_encode_ciphXform {n : Nat} (h : countOk n) : decode (encode (.ciphXform n)) = .ok (.ciphXform n) := by
  simp [decode, encode, countOf_ofNat h]

end Sys2Proof

namespace Sys2Proof.Machine

/-- An access beyond the window is refused with its offset (R50, I14). -/
theorem step_of_windowSize_le {s : State} {e : HostEvent} {rest : List HostEvent} {off width : Nat} {v : Word}
    (hp : s.pending = e :: rest) (he : e = .read off width ∨ e = .write off width v) (hoff : windowSize ≤ off) :
    step s = .refused (.outsideWindow off) := by
  have hout : ¬ off < windowSize := Nat.not_lt.mpr hoff
  rcases he with rfl | rfl
  · simp [step, fetch, hp, hout]
  · simp [step, fetch, hp, hout]

/-- An ill-formed read returns 0 and raises AccessError (R54). -/
theorem hostRead_of_illFormed {off width : Nat} (h : illFormed (.read off width)) (r : Regs) :
    hostRead off width r = (0, raise .accessError r) := by
  have hnone : wellFormedSlot .read off width = none := h
  simp only [hostRead, hnone]

/-- An ill-formed access raises AccessError and leaves the registers alone otherwise (R54, R201). -/
theorem applied_of_illFormed {e : HostEvent} (h : illFormed e) (r : Regs) : applied e r = raise .accessError r := by
  cases e with
  | read off width => rw [applied, hostRead_of_illFormed h]
  | write off width v =>
    have hnone : wellFormedSlot .write off width = none := h
    simp only [applied, hnone]
  | hardReset => exact h.elim

/-- A read after the same read returns the same and changes nothing more, ill formed or not (R60). -/
theorem hostRead_hostRead (off width : Nat) (r : Regs) :
    hostRead off width (hostRead off width r).2 = hostRead off width r := by
  rcases hostRead_cases off width r with ⟨sl, -, h⟩ | ⟨hnone, h⟩
  · simp only [h]
  · rw [h, hostRead_of_illFormed hnone]
    rfl

/-- Each multiple of 4 up to 0x38 is the offset of a slot (R50). -/
theorem exists_slot_of_offset {off : Nat} (h4 : off % 4 = 0) (hle : off ≤ 0x38) : ∃ sl : Slot, off = sl.offset := by
  cases hs : slotAt off with
  | none => exact absurd ⟨h4, hle⟩ (slotAt_eq_none.mp hs)
  | some sl => exact ⟨sl, slotAt_some hs⟩

/-- Two steps on an event that is idempotent from here leave the registers and the reply of one (R60). -/
theorem step_step_of_idempotent {s : State} {e : HostEvent} {rest : List HostEvent} (hp : s.pending = e :: e :: rest)
    (hw : inWindow e) (hregs : applied e (applied e s.regs) = applied e s.regs)
    (hreply : answered e (applied e s.regs) = answered e s.regs) :
    ∃ t u : State, step s = .next t ∧ step t = .next u ∧ u.regs = t.regs ∧ u.reply = t.reply :=
  ⟨_, _, step_of_inWindow hp hw, step_of_inWindow rfl hw, hregs, hreply⟩

/-- A write of a legal word to CMD has the effect of its command (R70). -/
theorem applied_command {w : Word} {i : Instr} (hd : decode w = .ok i) (r : Regs) :
    applied (.write 0x00 4 w) r = effectOf i r := by
  have hcmd : wellFormedSlot .write 0x00 4 = some .cmd := rfl
  simp only [applied, hcmd, hd]

/-- CIPH_XFORM N counts N bytes, modulo 2^32 (R27, R142). -/
theorem effectOf_ciphXform_ctr {n : Nat} (h : countOk n) (r : Regs) :
    (effectOf (.ciphXform n) r).ctr = r.ctr + BitVec.ofNat 32 n := by
  have hlen : (inputBytes n r).length = n := by
    simpa [inputBytes] using h.2
  rw [effectOf, transform_ctr, xformBytes_ctr, hlen]

end Sys2Proof.Machine

namespace Sys2Proof.Proofs
open Sys2Proof Sys2Proof.Machine

/-- Settles O15: the offsets of a window are the distances below 64 from its base, and a step on an access beyond is refused. -/
theorem onlyWindowAddressesSelectTheUnit : Obligations.OnlyWindowAddressesSelectTheUnit :=
  ⟨fun _ _ _ => windowOffset_eq_some, fun _ _ _ v _ hoff =>
    ⟨fun hp => step_of_windowSize_le (v := v) hp (.inl rfl) hoff, fun hp => step_of_windowSize_le hp (.inr rfl) hoff⟩⟩

/-- Settles O8: the accesses named are the ill-formed ones, whose whole effect is AccessError. -/
theorem illFormedAccessOnlySetsAccerr : Obligations.IllFormedAccessOnlySetsAccerr := by
  intro s off width v rest hoff
  refine ⟨fun hp hbad => ?read, fun hp hbad => ?write⟩
  case read =>
    have hill : illFormed (.read off width) := illFormed_iff.mpr (.inl ⟨off, width, rfl, hbad⟩)
    rw [step_of_inWindow hp hoff, applied_of_illFormed hill, answered, hostRead_of_illFormed hill]
    rfl
  case write =>
    have hill : illFormed (.write off width v) := illFormed_iff.mpr (.inr ⟨off, width, v, rfl, hbad⟩)
    rw [step_of_inWindow hp hoff, applied_of_illFormed hill]
    rfl

/-- Settles O12: a read leaves what it reads, a store over itself is one store, and each CIPH_XFORM counts its bytes. -/
theorem repeatedAccessIsIdempotentButCommandsAreNot : Obligations.RepeatedAccessIsIdempotentButCommandsAreNot := by
  refine ⟨fun s e rest he hp => ?access, fun s n rest hn hp => ?command⟩
  case access =>
    rcases he with ⟨off, -, hle, rfl⟩ | ⟨off, v, h4, hle, h0, hC, rfl⟩
    · have hwindow : inWindow (.read off 4) := Nat.lt_of_le_of_lt hle (by decide)
      exact step_step_of_idempotent hp hwindow (by simp only [applied, hostRead_hostRead])
        (by simp only [applied, answered, hostRead_hostRead])
    · obtain ⟨sl, rfl⟩ := exists_slot_of_offset h4 hle
      have hcmd : sl ≠ .cmd := by rintro rfl; exact h0 rfl
      have hdout : sl ≠ .dout := by rintro rfl; exact hC rfl
      exact step_step_of_idempotent hp sl.offset_lt_windowSize
        (by simp only [applied_store hcmd hdout, writeSlot_writeSlot]) rfl
  case command =>
    have hd := decode_encode_ciphXform hn
    have hwindow : inWindow (.write 0x00 4 (encode (.ciphXform n))) := by simp [inWindow, windowSize]
    refine ⟨_, _, step_of_inWindow hp hwindow, step_of_inWindow rfl hwindow, ?_, ?_⟩
    · simp only [applied_command hd, effectOf_ciphXform_ctr hn]
    · simp only [applied_command hd, effectOf_ciphXform_ctr hn, Nat.two_mul, BitVec.ofNat_add, BitVec.add_assoc]

end Sys2Proof.Proofs
end

section
/-! PROOFS. The command word both ways (R71 to R74): decoding and encoding are inverse, the fields as parts of the word's number, and
which words are illegal (R75). -/

namespace Sys2Proof

@[simp] theorem wf_ciphXform {n : Nat} : (Instr.ciphXform n).wf = true ↔ countOk n := by simp [Instr.wf]

@[simp] theorem wf_csumFeed {n : Nat} : (Instr.csumFeed n).wf = true ↔ countOk n := by simp [Instr.wf]

/-- The word of a well-formed command is legal and decodes to it (R73, R74). -/
theorem decode_encode {i : Instr} (h : i.wf = true) : decode (encode i) = .ok i := by
  cases i with
  | ciphXform n => exact decode_encode_ciphXform (wf_ciphXform.mp h)
  | csumFeed n => simp [decode, encode, countOf_ofNat (wf_csumFeed.mp h)]
  | _ => simp [decode, encode, decodeFixed]

/-- The legal words are the words of the well-formed commands (R73, R74). -/
theorem decode_eq_ok_iff {w : Word} {i : Instr} : decode w = .ok i ↔ i.wf = true ∧ encode i = w := by
  refine ⟨fun h => ⟨wf_of_decode h, encode_of_decode h⟩, ?_⟩
  rintro ⟨hwf, rfl⟩
  exact decode_encode hwf

/-- The word of every well-formed command stands in the list of R74. -/
theorem encode_mem_legalWords {i : Instr} (h : i.wf = true) : encode i ∈ legalWords := by
  cases i with
  | nop => exact Laws.LegalWord.nop h
  | ciphInit => exact Laws.LegalWord.ciphInit h
  | ciphXform n => exact Laws.LegalWord.ciphXform n h
  | kdfRecover => exact Laws.LegalWord.kdfRecover h
  | keyHdr => exact Laws.LegalWord.keyHdr h
  | csumInit => exact Laws.LegalWord.csumInit h
  | csumFeed n => exact Laws.LegalWord.csumFeed n h
  | sreset => exact Laws.LegalWord.sreset h

/-- Each word in the list of R74 is the word of a well-formed command. -/
theorem exists_encode_of_mem_legalWords {w : Word} (h : w ∈ legalWords) : ∃ i : Instr, i.wf = true ∧ encode i = w := by
  have hlist : legalWords =
      [Instr.nop, .ciphInit, .ciphXform 1, .ciphXform 2, .ciphXform 3, .ciphXform 4, .kdfRecover, .keyHdr, .csumInit,
        .csumFeed 1, .csumFeed 2, .csumFeed 3, .csumFeed 4, .sreset].map encode := by decide
  rw [hlist, List.mem_map] at h
  obtain ⟨i, hi, rfl⟩ := h
  exact ⟨i, by revert i; decide, rfl⟩

/-- The words that decode are those in the list of R74. -/
theorem exists_decode_ok_iff {w : Word} : (∃ i, decode w = .ok i) ↔ w ∈ legalWords := by
  simp only [decode_eq_ok_iff]
  refine ⟨?_, exists_encode_of_mem_legalWords⟩
  rintro ⟨i, hwf, rfl⟩
  exact encode_mem_legalWords hwf

/-- Field `OP` is the low hexadecimal digit (R71). -/
theorem opField_toNat (w : Word) : (opField w).toNat = w.toNat % 16 := by
  simp [opField, BitVec.extractLsb'_toNat]

/-- Field `NM1` as part of the word's number (R71). -/
theorem nm1Field_toNat (w : Word) : (nm1Field w).toNat = w.toNat / 16 % 4 := by
  simp [nm1Field, BitVec.extractLsb'_toNat, Nat.shiftRight_eq_div_pow]

theorem nm1Field_eq_zero_iff (w : Word) : nm1Field w = 0 ↔ w.toNat / 16 % 4 = 0 := by
  rw [← nm1Field_toNat, ← BitVec.toNat_inj]
  rfl

/-- The reserved bits are 0 exactly in the words below 64 (R71). -/
theorem rsvField_eq_zero_iff (w : Word) : rsvField w = 0 ↔ w.toNat < 64 := by
  have hw := toNat_of_fields w
  have hop := opField_toNat w
  have hnm1 := nm1Field_toNat w
  rw [← BitVec.toNat_inj, BitVec.ofNat_eq_ofNat, BitVec.toNat_ofNat, Nat.zero_mod]
  omega

/-- A set reserved bit makes a word illegal, whatever its other fields (R73). -/
theorem decode_of_reserved {w : Word} (h : 64 ≤ w.toNat) : decode w = .error .reservedBits :=
  if_pos (by rw [ne_eq, rsvField_eq_zero_iff]; omega)

/-- A command without a byte count needs `NM1` = 0 in the word's number (R73). -/
theorem decodeFixed_nm1Field (w : Word) (i : Instr) :
    decodeFixed (nm1Field w) i = if w.toNat / 16 % 4 = 0 then .ok i else .error .byteCount := by
  simp only [decodeFixed, nm1Field_eq_zero_iff]

/-- The byte count is `NM1` of the word's number, plus 1 (R72). -/
theorem countOf_nm1Field (w : Word) : countOf (nm1Field w) = w.toNat / 16 % 4 + 1 := by
  rw [countOf, nm1Field_toNat]

theorem exists_decodeFixed_error_iff {nm1 : BitVec 2} {i : Instr} :
    (∃ e, decodeFixed nm1 i = .error e) ↔ nm1 ≠ 0 := by
  unfold decodeFixed
  split
  case isTrue h => simp [h]
  case isFalse h => exact iff_of_true ⟨_, rfl⟩ h

/-- The three ways a word is illegal, on its fields (R75). -/
theorem exists_decode_error_iff {w : Word} :
    (∃ e, decode w = .error e) ↔
      rsvField w ≠ 0 ∨ 8 ≤ (opField w).toNat ∨
        (nm1Field w ≠ 0 ∧ (opField w).toNat ≠ 2 ∧ (opField w).toNat ≠ 6) := by
  unfold decode
  by_cases hrsv : rsvField w = 0
  case neg => exact iff_of_true ⟨_, if_pos hrsv⟩ (.inl hrsv)
  case pos =>
    rw [if_neg (not_not_intro hrsv)]
    split
    case h_3 hop | h_7 hop => simp [hrsv, hop]
    case h_9 =>
      have hop : 8 ≤ (opField w).toNat := by simp only [imp_false] at *; omega
      simp [hop]
    all_goals
      rename_i hop
      simp [exists_decodeFixed_error_iff, hrsv, hop]

end Sys2Proof

namespace Sys2Proof.Proofs
open Sys2Proof Sys2Proof.Machine

/-- Settles O2, command by command from the fields of the packed word. -/
theorem decodeOfEncodeIsTheCommand : Obligations.DecodeOfEncodeIsTheCommand :=
  fun _ => decode_encode

/-- Settles O3: a legal word is put together from the fields of its command. -/
theorem legalWordIsItsEncoding : Obligations.LegalWordIsItsEncoding :=
  fun _ _ => decode_eq_ok_iff.mp

/-- Settles O4: the branches of decoding on the fields as parts of the word's number, and the legal words as encodings. -/
theorem decodeFollowsOpcodeMap : Obligations.DecodeFollowsOpcodeMap := by
  refine ⟨fun w => ⟨decode_of_reserved, fun hlt => ?_⟩, rfl, by decide, fun _ => exists_decode_ok_iff⟩
  have hrsv : rsvField w = 0 := (rsvField_eq_zero_iff w).mpr hlt
  simp only [decode, hrsv, opField_toNat, decodeFixed_nm1Field, countOf_nm1Field, ne_eq, not_true_eq_false, if_false]
  generalize w.toNat % 16 = op
  refine ⟨?_, ?_, ?_, ?_, ?_, ?_, ?_, ?_, fun hop => ?above⟩
  case above =>
    split
    case h_9 => rfl
    all_goals omega
  all_goals
    rintro rfl
    rfl

/-- Settles O1: each word of the table is the word of its row's command. -/
theorem legalWordsDecodeAsListed : Obligations.LegalWordsDecodeAsListed := by
  unfold Obligations.LegalWordsDecodeAsListed
  simp only [decode_eq_ok_iff]
  decide

end Sys2Proof.Proofs
end

section
/-! PROOFS. A write to CMD (R70): it runs the command of a legal word, an illegal word only sets ILL (R75), a byte count outside 1..4
is no command (R77), and NOP alone does nothing (R160). -/

namespace Sys2Proof.Machine

/-- A write of an illegal word to CMD raises IllegalCommand (R70, R200). -/
theorem applied_illegalCommand {w : Word} {e : Illegal} (hd : decode w = .error e) (r : Regs) :
    applied (.write 0x00 4 w) r = raise .illegalCommand r := by
  have hcmd : wellFormedSlot .write 0x00 4 = some .cmd := rfl
  simp only [applied, hcmd, hd]

/-- A step on a CMD write of a legal word is its command, on the same registers with the event taken (R70). -/
theorem step_of_command {s : State} {w : Word} {i : Instr} {rest : List HostEvent} (hp : s.pending = .write 0x00 4 w :: rest)
    (hd : decode w = .ok i) : step s = exec i ⟨s.regs, rest, none⟩ := by
  rw [step_of_inWindow hp Slot.cmd.offset_lt_windowSize, applied_command hd, exec_of_wf (wf_of_decode hd)]
  rfl

/-- A step on a CMD write of an illegal word sets ILL and changes no other register (R75, R200). -/
theorem step_of_illegalCommand {s : State} {w : Word} {e : Illegal} {rest : List HostEvent}
    (hp : s.pending = .write 0x00 4 w :: rest) (hd : decode w = .error e) :
    step s = .next ⟨{ s.regs with ill := true }, rest, none⟩ := by
  rw [step_of_inWindow hp Slot.cmd.offset_lt_windowSize, applied_illegalCommand hd]
  rfl

/-- A step on a read of a slot answers with its value and changes no register (R164). -/
theorem step_of_read {s : State} {rest : List HostEvent} (sl : Slot) (hp : s.pending = .read sl.offset 4 :: rest) :
    step s = .next ⟨s.regs, rest, some (readSlot sl s.regs)⟩ := by
  rw [step_of_inWindow hp sl.offset_lt_windowSize, applied, answered, hostRead_offset]

/-- The assembler refuses a term that is no command (R77). -/
theorem assemble_of_not_wf {i : Instr} (h : ¬ i.wf = true) : assemble i = none := if_neg h

theorem assemble_of_wf {i : Instr} (h : i.wf = true) : assemble i = some (encode i) := if_pos h

/-- A command that leaves every state as it is has no effect on any registers. -/
theorem effectOf_eq_self {i : Instr} (h : ∀ s : State, exec i s = .next s) : i.wf = true ∧ ∀ r : Regs, effectOf i r = r := by
  refine ⟨(exec_next (h State.reset)).1, fun r => ?_⟩
  have hs := (exec_next (h (State.reset.withRegs r))).2
  exact (congrArg State.regs hs).symm

/-- No key stands in all registers. -/
theorem not_forall_key_eq (k0 : Vector Byte 8) : ¬ ∀ k : Vector Byte 8, k0 = k := by
  intro h
  have hne : (#v[0, 0, 0, 0, 0, 0, 0, 0] : Vector Byte 8) ≠ #v[1, 0, 0, 0, 0, 0, 0, 0] := by decide
  exact hne ((h _).symm.trans (h _))

/-- Every command but NOP changes some registers (R160). -/
theorem eq_nop_of_effectOf_eq_self {i : Instr} (hwf : i.wf = true) (h : ∀ r : Regs, effectOf i r = r) : i = .nop := by
  cases i with
  | nop => rfl
  | ciphInit => exact absurd (congrArg Regs.lk (h { Regs.reset with lk := 1 })) (by decide)
  | ciphXform n =>
    have hn := wf_ciphXform.mp hwf
    have hctr := congrArg (fun r => r.ctr.toNat) (h Regs.reset)
    simp only [effectOf_ciphXform_ctr hn] at hctr
    simp [Regs.reset] at hctr
    omega
  | kdfRecover =>
    have hkey : ∀ k, recoverKey Regs.reset.raw = k := fun k => congrArg Regs.key (h { Regs.reset with key := k })
    exact absurd hkey (not_forall_key_eq _)
  | keyHdr =>
    have hkey : ∀ k, Config.headerKey = k := fun k => congrArg Regs.key (h { Regs.reset with key := k })
    exact absurd hkey (not_forall_key_eq _)
  | csumInit => exact absurd (congrArg Regs.csAcc (h { Regs.reset with csAcc := 1 })) (by decide)
  | csumFeed n =>
    obtain ⟨h1, h4⟩ := wf_csumFeed.mp hwf
    have hcnt := congrArg Regs.csCnt (h { Regs.reset with csLen := 2 })
    interval_cases n <;> exact absurd hcnt (by decide)
  | sreset => exact absurd (congrArg Regs.din (h { Regs.reset with din := 1 })) (by decide)

end Sys2Proof.Machine

namespace Sys2Proof.Proofs
open Sys2Proof Sys2Proof.Machine

/-- Settles O5: the illegal words by their fields, the step on one, and for each command but NOP registers that it changes. -/
theorem illegalWordsOnlyRaiseIllegalCommand : Obligations.IllegalWordsOnlyRaiseIllegalCommand := by
  refine ⟨fun w => ?words, fun _ _ _ _ => step_of_illegalCommand, fun i => ⟨fun h => ?only, ?nop⟩⟩
  case words =>
    rw [exists_decode_error_iff, opField_toNat, ne_eq, ne_eq, rsvField_eq_zero_iff, nm1Field_eq_zero_iff]
    omega
  case only =>
    obtain ⟨hwf, heff⟩ := effectOf_eq_self h
    exact eq_nop_of_effectOf_eq_self hwf heff
  case nop =>
    rintro rfl s
    exact exec_of_wf rfl s

/-- Settles O6: the assembler refuses what is not well formed, and the data commands share the refusal of their operand. -/
theorem countOutsideOneToFourIsRefused : Obligations.CountOutsideOneToFourIsRefused := by
  intro n s hn
  exact ⟨assemble_of_not_wf (mt wf_ciphXform.mp hn), assemble_of_not_wf (mt wf_csumFeed.mp hn),
    withInput_of_bad hn transform s, withInput_of_bad hn foldBytes s⟩

/-- Settles O7, from the step on each kind of access to CMD. -/
theorem commandWriteRunsDecodedCommand : Obligations.CommandWriteRunsDecodedCommand :=
  fun _ _ => ⟨fun _ _ hp hd => ⟨wf_of_decode hd, step_of_command hp hd⟩, fun _ _ => step_of_illegalCommand,
    step_of_read .cmd⟩

end Sys2Proof.Proofs
end

section
/-! PROOFS. The data commands read lanes 0 to N-1 of DIN and no more (R72, R142). -/

namespace Sys2Proof.Machine

/-- The first `n` lanes of a word make up what a data command takes of it (R72). -/
theorem take_lanes_congr {w w' : Word} {n : Nat} (h : ∀ i, i < n → lane w i = lane w' i) :
    (lanes w).take n = (lanes w').take n := by
  have hlanes : ∀ v : Word, (lanes v).take n = (List.range (min n 4)).map (lane v) := fun v => by
    rw [← List.take_range, List.map_take]
    rfl
  rw [hlanes, hlanes]
  exact List.map_congr_left fun i hi => h i (by simp at hi; omega)

/-- Beyond its input bytes CIPH_XFORM does not read DIN (R142). -/
theorem transform_din_update (bs : List Byte) (w : Word) (r : Regs) :
    transform bs { r with din := w } = { transform bs r with din := w } := by
  obtain ⟨hout, hctr, hlk, hsig⟩ := xformBytes_congr bs (r := { r with din := w }) (r' := r) rfl rfl rfl
  rw [transform_frame, transform_frame bs r, hout, hctr, hlk, hsig rfl]

/-- Beyond its input bytes CSUM_FEED does not read DIN (R102). -/
theorem foldBytes_din_update (bs : List Byte) (w : Word) (r : Regs) :
    foldBytes bs { r with din := w } = { foldBytes bs r with din := w } := by
  obtain ⟨hacc, hcarry, hcnt⟩ := foldBytes_congr bs (r := { r with din := w }) (r' := r) rfl rfl rfl rfl
  rw [foldBytes_frame, foldBytes_frame bs r, hacc, hcarry, hcnt]

/-- A command whose effect on two DIN words differs in DIN only completes from both, with results that differ in DIN only. -/
theorem exec_withDin {i : Instr} (hwf : i.wf = true) {w w' : Word} {s : State}
    (heff : effectOf i { s.regs with din := w' } = { effectOf i { s.regs with din := w } with din := w' }) :
    ∃ t, exec i (withDin w s) = .next t ∧ exec i (withDin w' s) = .next (withDin w' t) := by
  refine ⟨_, exec_of_wf hwf _, ?_⟩
  rw [exec_of_wf hwf]
  simp only [withDin, State.withRegs_regs, State.withRegs_withRegs, heff]

end Sys2Proof.Machine

namespace Sys2Proof.Proofs
open Sys2Proof Sys2Proof.Machine

/-- Settles O27: both runs take the same bytes, and the effects read DIN nowhere else. -/
theorem lanesBeyondTheCountAreNotRead : Obligations.LanesBeyondTheCountAreNotRead := by
  intro s n w w' hn hlanes
  have hbytes := take_lanes_congr hlanes
  refine ⟨exec_withDin (wf_ciphXform.mpr hn) ?_, exec_withDin (wf_csumFeed.mpr hn) ?_⟩
  · simp only [effectOf, inputBytes, hbytes, transform_din_update]
  · simp only [effectOf, inputBytes, hbytes, foldBytes_din_update]

end Sys2Proof.Proofs
end

section
/-! PROOFS. The host's assembly lines: a mnemonic is the CMD write of its word (R77), and what the further lines expand to (R78). -/

namespace Sys2Proof.Machine

/-- A word with `NM1 = n - 1` is `OP | ((n-1) << 4)` (R77). -/
theorem commandWord_eq_or (op : BitVec 4) {n : Nat} (h : countOk n) :
    commandWord op (BitVec.ofNat 2 (n - 1)) = BitVec.ofNat 32 (op.toNat ||| ((n - 1) <<< 4)) := by
  have hop := op.isLt
  apply BitVec.eq_of_toNat_eq
  rw [commandWord_toNat, Nat.or_comm, ← Nat.shiftLeft_add_eq_or_of_lt hop, Nat.shiftLeft_eq]
  simp only [BitVec.toNat_ofNat]
  omega

theorem encode_ciphXform {n : Nat} (h : countOk n) :
    encode (.ciphXform n) = BitVec.ofNat 32 (0x2 ||| ((n - 1) <<< 4)) := commandWord_eq_or 0x2 h

theorem encode_csumFeed {n : Nat} (h : countOk n) :
    encode (.csumFeed n) = BitVec.ofNat 32 (0x6 ||| ((n - 1) <<< 4)) := commandWord_eq_or 0x6 h

theorem imm32_of_lt {v : Nat} (h : v < 2 ^ 32) : imm32 v = some (BitVec.ofNat 32 v) := if_pos h

theorem imm32_of_not_lt {v : Nat} (h : ¬ v < 2 ^ 32) : imm32 v = none := if_neg h

/-- The mnemonic of a command expands to the CMD write of its word (R77). -/
theorem commandEvents_of_wf {i : Instr} (h : i.wf = true) : commandEvents i = some [.write 0x00 4 (encode i)] := by
  rw [commandEvents, assemble_of_wf h]
  rfl

/-- A mnemonic with a count outside 1..4 is refused (R77). -/
theorem commandEvents_of_not_wf {i : Instr} (h : ¬ i.wf = true) : commandEvents i = none := by
  rw [commandEvents, assemble_of_not_wf h, Option.map_none]

/-- A data line expands exactly if its word is below 2^32 and its count in 1..4, to the DIN write and the CMD write (R78). -/
theorem dataEvents_eq_some_iff {w : Nat} {i : Instr} {es : List HostEvent} :
    dataEvents w i = some es ↔
      (w < 2 ^ 32 ∧ i.wf = true) ∧ [.write 0x08 4 (BitVec.ofNat 32 w), .write 0x00 4 (encode i)] = es := by
  by_cases hw : w < 2 ^ 32
  case neg => simp only [dataEvents, imm32_of_not_lt hw, hw, false_and, reduceCtorEq]
  case pos =>
    by_cases h : i.wf = true
    case neg => simp only [dataEvents, imm32_of_lt hw, commandEvents_of_not_wf h, h, and_false, false_and, reduceCtorEq]
    case pos =>
      simp only [dataEvents, imm32_of_lt hw, commandEvents_of_wf h, hw, h, true_and, Option.some.injEq]
      rfl

end Sys2Proof.Machine

namespace Sys2Proof.Proofs
open Sys2Proof Sys2Proof.Machine

/-- Settles O55: the word of each mnemonic, and the refusal of any that is no command. -/
theorem mnemonicsExpandToCommandWrites : Obligations.MnemonicsExpandToCommandWrites := by
  refine ⟨commandEvents_of_wf rfl, commandEvents_of_wf rfl, commandEvents_of_wf rfl, commandEvents_of_wf rfl,
    commandEvents_of_wf rfl, commandEvents_of_wf rfl, fun n => ⟨fun hn => ⟨?_, ?_⟩, fun hn => ⟨?_, ?_⟩⟩⟩
  · rw [← encode_ciphXform hn]
    exact commandEvents_of_wf (wf_ciphXform.mpr hn)
  · rw [← encode_csumFeed hn]
    exact commandEvents_of_wf (wf_csumFeed.mpr hn)
  · exact commandEvents_of_not_wf (mt wf_ciphXform.mp hn)
  · exact commandEvents_of_not_wf (mt wf_csumFeed.mp hn)

/-- Settles O56: the slots of the lines without a count, and the data lines for every count. -/
theorem pseudoInstructionsExpandAsListed : Obligations.PseudoInstructionsExpandAsListed := by
  refine ⟨fun _ => ⟨rfl, rfl⟩, fun w n hw hn => ⟨?xf, ?cs⟩, fun v hv => ⟨?csbegin, ?clr⟩⟩
  case xf =>
    rw [← encode_ciphXform hn]
    exact dataEvents_eq_some_iff.mpr ⟨⟨hw, wf_ciphXform.mpr hn⟩, rfl⟩
  case cs =>
    rw [← encode_csumFeed hn]
    exact dataEvents_eq_some_iff.mpr ⟨⟨hw, wf_csumFeed.mpr hn⟩, rfl⟩
  case csbegin =>
    have hinit : commandEvents .csumInit = _ := commandEvents_of_wf rfl
    simp only [expandLine, imm32_of_lt hv, hinit]
    rfl
  case clr =>
    simp only [expandLine, imm32_of_lt hv]
    rfl

/-- Settles O57: the line expands to the two accesses, of which the first stores DIN and the second runs the command. -/
theorem xfLineRunsTheCipherOnItsWord : Obligations.XfLineRunsTheCipherOnItsWord := by
  intro s w n es rest hline hp
  obtain ⟨⟨-, hwf⟩, rfl⟩ := dataEvents_eq_some_iff.mp hline
  refine ⟨_, step_of_inWindow hp Slot.din.offset_lt_windowSize, ?_⟩
  exact step_of_command rfl (decode_encode hwf)

end Sys2Proof.Proofs
end

section
/-! PROOFS. The checksum unit (R101, R102): CSUM_FEED is the loop of R100 over the bytes fed before the last of the range, however the
host splits them (R103 to R105), and a group adds the little-endian word of its bytes (R106). -/

namespace Sys2Proof.Machine
open Sys2Proof.Safety

/-- Bit 4 of STATUS is CSEQ (R36). -/
theorem statusWord_getLsbD_four (r : Regs) : (statusWord r).getLsbD 4 = cseq r := by
  simp [statusWord, flagBit]

/-- A byte added modulo 2^32 is a sum of words (R8, R102). -/
theorem mod32_add_byte (x : Word) (b : Byte) : mod32 ((x.toNat : Int) + b.toNat) = x + b.setWidth 32 := by
  apply BitVec.eq_of_toNat_eq
  simp only [mod32, BitVec.toNat_ofInt, BitVec.toNat_add, BitVec.toNat_setWidth]
  omega

/-- A byte shifted to its place and added modulo 2^32 is a sum of words (R8, R102). -/
theorem mod32_add_shifted_byte (x : Word) (b : Byte) {p : Nat} (hp : p < 4) :
    mod32 ((x.toNat : Int) + (b.toNat <<< (8 * p) : Nat)) = x + atLane b p := by
  apply BitVec.eq_of_toNat_eq
  rw [BitVec.toNat_add, atLane_toNat b p hp, Nat.shiftLeft_eq]
  simp only [mod32, BitVec.toNat_ofInt]
  omega

/-- The first byte of a group is added to the carry (R102). -/
theorem foldByte_csAcc_of_boundary {r : Regs} (b : Byte) (hroom : r.csCnt.toNat + 1 < r.csLen.toNat)
    (hp : r.csCnt.toNat % 4 = 0) : (foldByte r b).csAcc = r.csCarry + b.setWidth 32 := by
  rw [foldByte_of_room b hroom]
  exact if_pos hp

/-- A further byte of a group is added to the accumulator at its place (R102). -/
theorem foldByte_csAcc_of_inside {r : Regs} (b : Byte) (hroom : r.csCnt.toNat + 1 < r.csLen.toNat)
    (hp : r.csCnt.toNat % 4 ≠ 0) : (foldByte r b).csAcc = r.csAcc + atLane b (r.csCnt.toNat % 4) := by
  rw [foldByte_of_room b hroom]
  exact if_neg hp

/-- The last byte of a group rotates the accumulator into the carry (R102). -/
theorem foldByte_csCarry_of_last {r : Regs} (b : Byte) (hroom : r.csCnt.toNat + 1 < r.csLen.toNat)
    (hp : r.csCnt.toNat % 4 = 3) : (foldByte r b).csCarry = rotl32 (foldByte r b).csAcc 11 := by
  rw [foldByte_of_room b hroom]
  exact if_pos hp

/-- No other byte changes the carry (R102). -/
theorem foldByte_csCarry_of_not_last {r : Regs} (b : Byte) (hp : r.csCnt.toNat % 4 ≠ 3) :
    (foldByte r b).csCarry = r.csCarry := by
  by_cases hroom : r.csCnt.toNat + 1 < r.csLen.toNat
  · rw [foldByte_of_room b hroom]
    exact if_neg hp
  · rw [foldByte_of_full b hroom]

/-- Bytes fed when the range is complete change nothing (R102). -/
theorem foldBytes_of_full (bs : List Byte) {r : Regs} (h : ¬ r.csCnt.toNat + 1 < r.csLen.toNat) : foldBytes bs r = r := by
  induction bs with
  | nil => rfl
  | cons b bs ih => rw [foldBytes_cons, foldByte_of_full b h, ih]

/-- Bytes within the range are all counted (R31, R102). -/
theorem foldBytes_csCnt_toNat (bs : List Byte) {r : Regs} (h : r.csCnt.toNat + bs.length ≤ r.csLen.toNat - 1) :
    (foldBytes bs r).csCnt.toNat = r.csCnt.toNat + bs.length := by
  induction bs generalizing r with
  | nil => rfl
  | cons b bs ih =>
    rw [List.length_cons] at h ⊢
    have hcnt := foldByte_csCnt_toNat b (r := r) (by omega)
    rw [foldBytes_cons, ih (by rw [hcnt, foldByte_csLen]; omega), hcnt]
    omega

/-- Of the bytes fed, only those before the last byte of the range are read (R102). -/
theorem foldBytes_take_room (bs : List Byte) (r : Regs) :
    foldBytes (bs.take (r.csLen.toNat - 1 - r.csCnt.toNat)) r = foldBytes bs r := by
  induction bs generalizing r with
  | nil => rw [List.take_nil]
  | cons b bs ih =>
    by_cases hroom : r.csCnt.toNat + 1 < r.csLen.toNat
    · have hstep : r.csLen.toNat - 1 - r.csCnt.toNat =
          (foldByte r b).csLen.toNat - 1 - (foldByte r b).csCnt.toNat + 1 := by
        rw [foldByte_csCnt_toNat b hroom, foldByte_csLen]
        omega
      rw [hstep, List.take_succ_cons, foldBytes_cons, foldBytes_cons, ih]
    · rw [foldBytes_of_full _ hroom, foldBytes_of_full _ hroom]

/-- Bytes that complete no group leave the carry as it is (R102). -/
theorem foldBytes_csCarry_of_partial (bs : List Byte) {r : Regs} (h : r.csCnt.toNat % 4 + bs.length < 4) :
    (foldBytes bs r).csCarry = r.csCarry := by
  induction bs generalizing r with
  | nil => rfl
  | cons b bs ih =>
    rw [List.length_cons] at h
    have hcarry := foldByte_csCarry_of_not_last b (r := r) (by omega)
    by_cases hroom : r.csCnt.toNat + 1 < r.csLen.toNat
    · rw [foldBytes_cons, ih (by rw [foldByte_csCnt_toNat b hroom]; omega), hcarry]
    · rw [foldBytes_of_full _ hroom]

/-- One round of the loop of R100 is one folded byte (R102). -/
theorem checksumLoop_cons {r : Regs} (b : Byte) (bs : List Byte) (hroom : r.csCnt.toNat + 1 < r.csLen.toNat) :
    checksumLoop r.csCnt.toNat (b :: bs) (r.csAcc, r.csCarry) =
      checksumLoop (foldByte r b).csCnt.toNat bs ((foldByte r b).csAcc, (foldByte r b).csCarry) := by
  rw [foldByte_csCnt_toNat b hroom, foldByte_of_room b hroom]
  rfl

/-- Bytes within the range run the loop of R100 on the accumulator and the carry (R102). -/
theorem foldBytes_eq_checksumLoop (bs : List Byte) {r : Regs} (h : r.csCnt.toNat + bs.length ≤ r.csLen.toNat - 1) :
    ((foldBytes bs r).csAcc, (foldBytes bs r).csCarry) = checksumLoop r.csCnt.toNat bs (r.csAcc, r.csCarry) := by
  induction bs generalizing r with
  | nil => rfl
  | cons b bs ih =>
    rw [List.length_cons] at h
    have hroom : r.csCnt.toNat + 1 < r.csLen.toNat := by omega
    rw [checksumLoop_cons b bs hroom, foldBytes_cons]
    exact ih (by rw [foldByte_csCnt_toNat b hroom, foldByte_csLen]; omega)

@[simp] theorem startChecksum_csCnt_toNat (r : Regs) : (startChecksum r).csCnt.toNat = 0 := rfl

/-- Size 0 reads no byte, as size 1 does (R100, C5). -/
theorem foldedCount_eq (size : Nat) : foldedCount size = size - 1 := by
  unfold foldedCount
  split <;> omega

/-- From CSUM_INIT, the bytes of a range no longer than the declared one give the source's checksum of it (R103). -/
theorem foldBytes_started_csAcc (data : List Byte) {size : Nat} (r : Regs) (h : size - 1 ≤ r.csLen.toNat - 1) :
    (foldBytes (data.take (size - 1)) (startChecksum r)).csAcc = checksumRef data size := by
  have hlen := List.length_take_le (size - 1) data
  have hloop := foldBytes_eq_checksumLoop (data.take (size - 1)) (r := startChecksum r) (by simp; omega)
  rw [checksumRef, checksumEnd, foldedCount_eq]
  exact congrArg Prod.fst hloop

/-- From CSUM_INIT, complete groups and a partial one leave in the carry the rotated accumulator of the complete ones (R30, R103). -/
theorem foldBytes_started_csCarry {groups part : List Byte} {r : Regs} (hgroups : groups.length % 4 = 0)
    (hpart : part.length < 4) (hlen : groups.length ≤ r.csLen.toNat - 1) :
    (foldBytes (groups ++ part) (startChecksum r)).csCarry = rotl32 (foldBytes groups (startChecksum r)).csAcc 11 := by
  have hcnt : (foldBytes groups (startChecksum r)).csCnt.toNat = groups.length := by
    rw [foldBytes_csCnt_toNat _ (by simpa using hlen), startChecksum_csCnt_toNat, Nat.zero_add]
  have hinv : carryFollowsGroups (foldBytes groups (startChecksum r)) :=
    foldBytes_keeps (fun b _ => foldByte_carryFollowsGroups b) _ (carryFollowsGroups_of_zero rfl rfl)
  obtain ⟨-, hend⟩ := hinv
  rw [foldBytes_append, foldBytes_csCarry_of_partial _ (by omega), hend (by omega)]

/-- CSUM_INIT completes in the started checksum, with everything else as it was (R101). -/
theorem exec_csumInit_next {s t : State} (h : exec .csumInit s = .next t) : t = s.withRegs (startChecksum s.regs) :=
  (exec_next h).2

/-- The registers with a checksum started and the bytes before the last of the range folded (R101, R102). -/
def checksumOf (stream : List Byte) (r : Regs) : Regs := foldBytes (stream.take (r.csLen.toNat - 1)) (startChecksum r)

/-- A checksum started and a stream fed are those registers, however long the stream is (R102). -/
theorem foldBytes_startChecksum (stream : List Byte) (r : Regs) : foldBytes stream (startChecksum r) = checksumOf stream r :=
  (foldBytes_take_room stream (startChecksum r)).symm

/-- A checksum just started depends on CS_LEN and the stream only (R105). -/
theorem checksumOf_congr (stream : List Byte) {r r' : Regs} (hlen : r.csLen = r'.csLen) :
    (checksumOf stream r).csAcc = (checksumOf stream r').csAcc ∧
      (checksumOf stream r).csCarry = (checksumOf stream r').csCarry ∧
      (checksumOf stream r).csCnt = (checksumOf stream r').csCnt := by
  rw [← foldBytes_startChecksum, ← foldBytes_startChecksum]
  exact foldBytes_congr stream rfl rfl rfl hlen

/-- From CSUM_INIT, the CS loop completes with the checksum registers of its stream (R103). -/
theorem feedSequence_started {s s0 : State} {feeds : List (Word × Nat)} (hinit : exec .csumInit s = .next s0)
    (hok : countsOk feeds) :
    ∃ t, feedSequence feeds s0 = some t ∧
      t.regs.csAcc = (checksumOf (streamOf feeds) s.regs).csAcc ∧
      t.regs.csCarry = (checksumOf (streamOf feeds) s.regs).csCarry ∧
      t.regs.csCnt = (checksumOf (streamOf feeds) s.regs).csCnt := by
  obtain rfl := exec_csumInit_next hinit
  rw [← foldBytes_startChecksum]
  exact feedSequence_eq hok _

/-- The next byte of a word, at its place, completes the word's low bytes (R10). -/
theorem low_bytes_add_lane (w : Word) {n : Nat} (h : n < 4) :
    BitVec.ofNat 32 (w.toNat % 2 ^ (8 * n)) + atLane (lane w n) n = BitVec.ofNat 32 (w.toNat % 2 ^ (8 * (n + 1))) := by
  apply BitVec.eq_of_toNat_eq
  rw [BitVec.toNat_add, atLane_toNat _ _ h, lane_toNat, BitVec.toNat_ofNat, BitVec.toNat_ofNat]
  interval_cases n <;> omega

/-- CSUM_FEED `i + 1` is CSUM_FEED `i` and then one byte, lane `i` (R102). -/
theorem effectOf_csumFeed_succ {i : Nat} (h : i < 4) (r : Regs) :
    effectOf (.csumFeed (i + 1)) r = foldByte (effectOf (.csumFeed i) r) (lane r.din i) := by
  have hlane : (lanes r.din)[i] = lane r.din i := by interval_cases i <;> rfl
  rw [effectOf, inputBytes, List.take_succ_eq_append_getElem h, foldBytes_append, hlane]
  rfl

@[simp] theorem effectOf_csumFeed_csLen (n : Nat) (r : Regs) : (effectOf (.csumFeed n) r).csLen = r.csLen :=
  foldBytes_csLen _ r

/-- With room for them, CSUM_FEED counts its bytes (R31, R102). -/
theorem effectOf_csumFeed_csCnt_toNat {n : Nat} {r : Regs} (hn : n ≤ 4) (hroom : r.csCnt.toNat + n ≤ r.csLen.toNat - 1) :
    (effectOf (.csumFeed n) r).csCnt.toNat = r.csCnt.toNat + n := by
  have hlen : (inputBytes n r).length = n := List.length_take_of_le hn
  rw [effectOf, foldBytes_csCnt_toNat _ (by omega), hlen]

/-- At a group boundary, CSUM_FEED adds the low bytes of DIN to the carry (R106). -/
theorem effectOf_csumFeed_csAcc {n : Nat} {r : Regs} (hn : countOk n) (hp : r.csCnt.toNat % 4 = 0)
    (hroom : r.csCnt.toNat + n < r.csLen.toNat) :
    (effectOf (.csumFeed n) r).csAcc = r.csCarry + BitVec.ofNat 32 (r.din.toNat % 2 ^ (8 * n)) := by
  obtain ⟨h1, h4⟩ := hn
  induction n, h1 using Nat.le_induction with
  | base =>
    have hlow : (lane r.din 0).setWidth 32 = BitVec.ofNat 32 (r.din.toNat % 2 ^ 8) := by
      simpa [atLane, Nat.mod_one] using low_bytes_add_lane r.din (n := 0) (by omega)
    rw [effectOf_csumFeed_succ h4]
    exact (foldByte_csAcc_of_boundary _ hroom hp).trans (congrArg (r.csCarry + ·) hlow)
  | succ n h1 ih =>
    have hcnt : (effectOf (.csumFeed n) r).csCnt.toNat = r.csCnt.toNat + n :=
      effectOf_csumFeed_csCnt_toNat (Nat.le_of_lt h4) (by omega)
    have hpos : (effectOf (.csumFeed n) r).csCnt.toNat % 4 = n := by omega
    rw [effectOf_csumFeed_succ h4, foldByte_csAcc_of_inside _ (by rw [hcnt, effectOf_csumFeed_csLen]; omega) (by omega),
      hpos, ih (by omega) (by omega), BitVec.add_assoc, low_bytes_add_lane r.din h4]

/-- At a group boundary, CSUM_FEED 4 rotates the accumulator it gives into the carry (R106). -/
theorem effectOf_csumFeed_four_csCarry {r : Regs} (hp : r.csCnt.toNat % 4 = 0) (hroom : r.csCnt.toNat + 4 < r.csLen.toNat) :
    (effectOf (.csumFeed 4) r).csCarry = rotl32 (effectOf (.csumFeed 4) r).csAcc 11 := by
  have hcnt : (effectOf (.csumFeed 3) r).csCnt.toNat = r.csCnt.toNat + 3 :=
    effectOf_csumFeed_csCnt_toNat (by omega) (by omega)
  rw [effectOf_csumFeed_succ (by omega)]
  exact foldByte_csCarry_of_last _ (by rw [hcnt, effectOf_csumFeed_csLen]; omega) (by omega)

/-- At a group boundary, fewer than four bytes leave the carry as it is (R106). -/
theorem effectOf_csumFeed_csCarry_of_lt {n : Nat} {r : Regs} (hn : n < 4) (hp : r.csCnt.toNat % 4 = 0) :
    (effectOf (.csumFeed n) r).csCarry = r.csCarry := by
  have hlen : (inputBytes n r).length = n := List.length_take_of_le hn.le
  exact foldBytes_csCarry_of_partial _ (by omega)

/-- What one folded byte does, in the numbers of R102. -/
theorem foldByte_fields (r : Regs) (b : Byte) :
    if r.csLen.toNat ≠ 0 ∧ r.csCnt.toNat < r.csLen.toNat - 1 then
      (foldByte r b).csAcc =
        (if r.csCnt.toNat % 4 = 0 then mod32 (r.csCarry.toNat + b.toNat)
          else mod32 (r.csAcc.toNat + (b.toNat <<< (8 * (r.csCnt.toNat % 4)) : Nat))) ∧
      (foldByte r b).csCarry = (if r.csCnt.toNat % 4 = 3 then rotl32 (foldByte r b).csAcc 11 else r.csCarry) ∧
      (foldByte r b).csCnt.toNat = r.csCnt.toNat + 1
    else (foldByte r b).csAcc = r.csAcc ∧ (foldByte r b).csCarry = r.csCarry ∧ (foldByte r b).csCnt = r.csCnt := by
  split
  case isFalse hfull => simp [foldByte_of_full b (r := r) (by omega)]
  case isTrue h =>
    have hroom : r.csCnt.toNat + 1 < r.csLen.toNat := by omega
    refine ⟨?acc, ?carry, foldByte_csCnt_toNat b hroom⟩
    case acc =>
      split
      case isTrue hp => rw [foldByte_csAcc_of_boundary b hroom hp, mod32_add_byte]
      case isFalse hp => rw [foldByte_csAcc_of_inside b hroom hp, mod32_add_shifted_byte _ _ (Nat.mod_lt _ (by omega))]
    case carry =>
      split
      case isTrue hp => exact foldByte_csCarry_of_last b hroom hp
      case isFalse hp => exact foldByte_csCarry_of_not_last b hp

end Sys2Proof.Machine

namespace Sys2Proof.Proofs
open Sys2Proof Sys2Proof.Machine

/-- Settles O30: the bytes read are those of the data, and folding them is the loop of R100. -/
theorem feedingARangeGivesTheSourceChecksum : Obligations.FeedingARangeGivesTheSourceChecksum := by
  intro s s0 feeds data size hinit hok hdata hstream hagree
  obtain ⟨t, hrun, hacc, hcarry, hcnt⟩ := feedSequence_started hinit hok
  rw [checksumOf, hagree] at hacc hcarry hcnt
  have hlen : (data.take (size - 1)).length = size - 1 := List.length_take_of_le (by omega)
  refine ⟨t, hrun, hacc.trans (foldBytes_started_csAcc data s.regs le_rfl), ?count, ?carry⟩
  case count =>
    rw [hcnt, foldBytes_csCnt_toNat _ (by simp [size]), hlen, startChecksum_csCnt_toNat]
    omega
  case carry =>
    have hgroups : (size - 1) / 4 * 4 ≤ size - 1 := Nat.div_mul_le_self ..
    have hlenGroups : (data.take ((size - 1) / 4 * 4)).length = (size - 1) / 4 * 4 := List.length_take_of_le (by omega)
    have hsplit : data.take (size - 1) =
        data.take ((size - 1) / 4 * 4) ++ (data.drop ((size - 1) / 4 * 4)).take ((size - 1) % 4) := by
      rw [← List.take_add, Nat.div_add_mod']
    rw [hcarry, hsplit, foldBytes_started_csCarry (by omega) (by simp; omega) (by omega)]
    split
    case isTrue hsmall =>
      have h0 : (size - 1) / 4 * 4 = 0 := by omega
      have hrot : rotl32 0 11 = 0 := by decide
      rw [h0]
      exact hrot
    case isFalse =>
      exact congrArg (rotl32 · 11) (foldBytes_started_csAcc data (size := (size - 1) / 4 * 4 + 1) s.regs hgroups)

/-- Settles O31: byte CS_LEN - 1 of the stream is not among the bytes read. -/
theorem lastByteOfRangeIsExcluded : Obligations.LastByteOfRangeIsExcluded := by
  intro s s0 t t' feeds feeds' b hinit hok hok' _ hset hrun hrun'
  obtain ⟨u, hu, hacc, -⟩ := feedSequence_started hinit hok
  obtain ⟨u', hu', hacc', -⟩ := feedSequence_started hinit hok'
  obtain rfl : t = u := Option.some.inj (hrun.symm.trans hu)
  obtain rfl : t' = u' := Option.some.inj (hrun'.symm.trans hu')
  rw [hacc', hacc, checksumOf, hset, List.take_set_of_le le_rfl, checksumOf]

/-- Settles O32: both runs fold the same bytes, and folding reads the checksum registers only. -/
theorem checksumIgnoresSplitAndOtherState : Obligations.ChecksumIgnoresSplitAndOtherState := by
  intro s s' s0 s0' feeds feeds' hlen hinit hinit' hok hok' hstream
  obtain ⟨t, hrun, hacc, hcarry, hcnt⟩ := feedSequence_started hinit hok
  obtain ⟨t', hrun', hacc', hcarry', hcnt'⟩ := feedSequence_started hinit' hok'
  obtain ⟨ha, hc, hn⟩ := checksumOf_congr (streamOf feeds) hlen
  rw [← hstream] at hacc' hcarry' hcnt'
  exact ⟨t, t', hrun, hrun', by rw [hacc, hacc', ha], by rw [hcarry, hcarry', hc], by rw [hcnt, hcnt', hn]⟩

/-- Settles O33: the accumulator lane by lane; the carry changes at the fourth byte only. -/
theorem groupAddsItsLittleEndianWord : Obligations.GroupAddsItsLittleEndianWord := by
  intro s n hn hp hroom
  have hacc := effectOf_csumFeed_csAcc hn hp hroom
  refine ⟨_, exec_of_wf (wf_csumFeed.mpr hn) s, hacc, ?carry, effectOf_csumFeed_csCnt_toNat hn.2 (by omega)⟩
  split
  case isTrue h4 =>
    subst h4
    rw [Nat.mod_eq_of_lt s.regs.din.isLt, BitVec.ofNat_toNat, BitVec.setWidth_eq] at hacc
    rw [← hacc]
    exact effectOf_csumFeed_four_csCarry hp hroom
  case isFalse h4 =>
    exact effectOf_csumFeed_csCarry_of_lt (lt_of_le_of_ne hn.2 h4) hp

/-- Settles O25: the sequences are the checksum registers that CSUM_FEED of each smaller count leaves. -/
theorem csumFeedFoldsLanesInOrder : Obligations.CsumFeedFoldsLanesInOrder := by
  intro s n hn r b
  refine ⟨encode_csumFeed hn, fun i => (effectOf (.csumFeed i) r).csAcc, fun i => (effectOf (.csumFeed i) r).csCarry,
    fun i => (effectOf (.csumFeed i) r).csCnt, rfl, rfl, rfl, fun i hi => ?lane, ?result⟩
  case lane =>
    have hbyte := foldByte_fields (effectOf (.csumFeed i) r) (lane r.din i)
    rw [← effectOf_csumFeed_succ (lt_of_lt_of_le hi hn.2), effectOf_csumFeed_csLen] at hbyte
    exact hbyte
  case result =>
    rw [exec_of_wf (wf_csumFeed.mpr hn) s, effectOf, foldBytes_frame]
    rfl

/-- Settles O21: the started checksum has an accumulator of 0, and the words of the opcode differ in NM1 or in a reserved bit. -/
theorem csumInitStartsAChecksum : Obligations.CsumInitStartsAChecksum := by
  refine ⟨by decide, fun w hop hne => ?illegal, fun s => ⟨_, exec_of_wf rfl s, rfl, ?status⟩⟩
  case illegal =>
    rw [exists_decode_error_iff, opField_toNat, ne_eq, ne_eq, rsvField_eq_zero_iff, nm1Field_eq_zero_iff]
    have : w.toNat ≠ 5 := fun h => hne (BitVec.eq_of_toNat_eq h)
    omega
  case status =>
    rw [readSlot, statusWord_getLsbD_four]
    simp only [cseq, effectOf, State.withRegs_regs, startChecksum_csAcc, startChecksum_csExp, eq_comm]

end Sys2Proof.Proofs
end

section
/-! PROOFS. Key recovery (R120 to R127): KDF_RECOVER runs the source's loop, the recovered key is the one key whose keystream masks the
signature as RAW does (`recoverKey_eq_iff`), and what a block decrypts to under it. -/

namespace Sys2Proof.Machine

/-- A bank of eight bytes as the list of its bytes. -/
theorem toList_bank (b : Vector Byte 8) : b.toList = [b[0], b[1], b[2], b[3], b[4], b[5], b[6], b[7]] := by
  apply List.ext_getElem
  · simp
  · intro i hi _
    have hi : i < 8 := by simpa using hi
    interval_cases i <;> rfl

/-- The lanes of a bank's two words are its bytes in order (R26, R56). -/
theorem lanes_bankLo_append_lanes_bankHi (b : Vector Byte 8) : lanes (bankLo b) ++ lanes (bankHi b) = b.toList := by
  rw [bankLo, bankHi, lanes_le32, lanes_le32, toList_bank]
  rfl

/-- Two full words carry their eight lanes (R56). -/
theorem streamOf_two_words (w1 w2 : Word) : streamOf [(w1, 4), (w2, 4)] = lanes w1 ++ lanes w2 := by
  simp [streamOf, lanes]

/-- The key that KDF_RECOVER loads is the one the source's loop gives (R120). -/
theorem toList_recoverKey (raw : Vector Byte 8) : (recoverKey raw).toList = recoverKeyRef raw := by
  rw [recoverKeyRef, toList_bank raw]
  rfl

/-- Every key byte after the first is one round on two neighbouring derived bytes (R120). -/
theorem recoverKey_getElem_succ (raw : Vector Byte 8) {j : Nat} (h : j < 7) :
    (recoverKey raw)[j + 1] = recoverByte (derived raw ⟨j, by omega⟩) (derived raw ⟨j + 1, by omega⟩) := by
  interval_cases j <;> rfl

/-- The keystream of the recovered key starts with the bytes the key was derived from (R125). -/
theorem keystream_recoverKey (raw : Vector Byte 8) {c : Nat} (h : c < 8) :
    keystream (recoverKey raw) c = derived raw ⟨c, h⟩ := by
  induction c with
  | zero => rfl
  | succ c ih =>
    have hc : c < 7 := by omega
    rw [keystream_succ_of_lt _ c hc, ih (by omega), recoverKey_getElem_succ raw hc, recoverByte_eq_sub, BitVec.sub_add_cancel]

/-- The recovered key is the one key whose keystream masks the signature as the raw bytes do (R124, R125). -/
theorem recoverKey_eq_iff {raw K : Vector Byte 8} :
    recoverKey raw = K ↔ ∀ c : Fin 8, raw[c.val] = sig[c.val] ^^^ keystream K c.val := by
  refine ⟨?_, recoverKey_of_masked_signature⟩
  rintro rfl c
  rw [keystream_recoverKey raw c.isLt, derived, ← BitVec.xor_assoc, BitVec.xor_self, BitVec.zero_xor]

/-- The same for the raw bytes as a stream. -/
theorem recoverKey_eq_iff_toList {raw K : Vector Byte 8} :
    recoverKey raw = K ↔ raw.toList = (sig.toList.take 8).mapIdx fun c b => b ^^^ keystream K c := by
  rw [recoverKey_eq_iff]
  constructor
  · intro h
    apply List.ext_getElem
    · simp
    · intro i h1 h2
      simpa using h ⟨i, by simpa using h1⟩
  · intro h c
    simpa using List.getElem_of_eq h (i := c.val) (by simp)

/-- The start of the keystream and the key determine each other, by way of recovery (R125). -/
theorem keystream_start_eq_iff {K k : Vector Byte 8} :
    (Vector.ofFn fun c : Fin 8 => keystream K c.val) = k ↔
      recoverKey (Vector.ofFn fun c : Fin 8 => sig[c.val] ^^^ k[c.val]) = K := by
  rw [recoverKey_eq_iff]
  simp only [Vector.getElem_ofFn, BitVec.xor_right_inj]
  constructor
  · rintro rfl c
    simp
  · intro h
    apply Vector.ext
    intro i hi
    simpa using (h ⟨i, hi⟩).symm

/-- The start of a mapped list is the mapped start. -/
theorem take_mapIdx {α β : Type} (f : Nat → α → β) (l : List α) (n : Nat) : (l.mapIdx f).take n = (l.take n).mapIdx f := by
  apply List.ext_getElem
  · simp
  · intro i _ _
    simp

/-- Masking twice with a keystream gives the bytes back (R147). -/
theorem mapIdx_xor_mapIdx_xor (bs : List Byte) (ks : Nat → Byte) :
    ((bs.mapIdx fun c b => b ^^^ ks c).mapIdx fun c b => b ^^^ ks c) = bs := by
  apply List.ext_getElem
  · simp
  · intro i _ _
    simp

/-- Bytes are the masked outputs exactly when the outputs are the masked bytes (R147). -/
theorem mapIdx_xor_eq_iff {bs outs : List Byte} {ks : Nat → Byte} :
    (bs.mapIdx fun c b => b ^^^ ks c) = outs ↔ bs = outs.mapIdx fun c b => b ^^^ ks c := by
  constructor <;> rintro rfl
  · exact (mapIdx_xor_mapIdx_xor _ _).symm
  · exact mapIdx_xor_mapIdx_xor _ _

/-- From CIPH_INIT the XF loop completes: the outputs are the stream masked with the key's keystream, CTR counts them, and SIGERR is 0
exactly when those among the first sixteen are the signature's bytes (R144, R146). -/
theorem xformSequence_started {s s0 : State} {feeds : List (Word × Nat)} {outs : List Byte} (hinit : exec .ciphInit s = .next s0)
    (hok : countsOk feeds) (houts : ((streamOf feeds).mapIdx fun c b => b ^^^ keystream s.regs.key c) = outs)
    (hlen : outs.length < 2 ^ 32) :
    ∃ t, xformSequence feeds s0 = some (outs, t) ∧ t.regs.ctr.toNat = outs.length ∧
      (t.regs.sigerr = false ↔ outs.take 16 = sig.toList.take outs.length) := by
  obtain rfl := exec_ciphInit_next hinit
  have hstream : (streamOf feeds).length = outs.length := by simp [← houts]
  rw [← hstream] at hlen
  obtain ⟨t, hrun, hctr, -, hsig, -⟩ := xformSequence_eq hok (s.withRegs (startBlock s.regs))
  rw [State.withRegs_regs] at hrun hctr hsig
  have hbytes : (xformBytes (streamOf feeds) (startBlock s.regs)).1 = outs := (xformBytes_started _ _ hlen).trans houts
  refine ⟨t, hbytes ▸ hrun, ?_, ?_⟩
  · rw [hctr, xformBytes_started_ctr _ _ hlen, hstream]
  · rw [hsig, xformBytes_started_sigerr _ _ hlen, hbytes]

/-- KDF_RECOVER completes with the recovered key in KEY, and nothing else changes (R122). -/
theorem exec_kdfRecover (s : State) :
    exec .kdfRecover s = .next { s with regs := { s.regs with key := recoverKey s.regs.raw } } := exec_of_wf rfl s

/-- Where RAW holds the signature masked with the keystream of `K`, KDF_RECOVER loads `K` (R124). -/
theorem exec_kdfRecover_of_masked {s : State} {K : Vector Byte 8}
    (h : s.regs.raw.toList = (sig.toList.take 8).mapIdx fun c b => b ^^^ keystream K c) :
    exec .kdfRecover s = .next { s with regs := { s.regs with key := K } } := by
  rw [exec_kdfRecover, recoverKey_eq_iff_toList.mpr h]

end Sys2Proof.Machine

namespace Sys2Proof.Proofs
open Sys2Proof Sys2Proof.Machine Sys2Proof.Safety

/-- Settles O22. -/
theorem keyHdrLoadsTheHeaderKey : Obligations.KeyHdrLoadsTheHeaderKey :=
  ⟨by decide, fun s => exec_of_wf rfl s⟩

/-- Settles O29: a key load writes KEY only, and CIPH_INIT neither reads nor writes KEY or RAW. -/
theorem keyLoadAndBlockStartCommute : Obligations.KeyLoadAndBlockStartCommute := by
  rintro s i (rfl | rfl) <;> exact ⟨_, _, _, exec_of_wf rfl s, exec_of_wf rfl _, exec_of_wf rfl s, exec_of_wf rfl _⟩

/-- Settles O23. -/
theorem kdfRecoverLoadsTheRecoveredKey : Obligations.KdfRecoverLoadsTheRecoveredKey :=
  ⟨by decide, fun s => ⟨recoverKey s.regs.raw, toList_recoverKey _, exec_kdfRecover s⟩⟩

/-- Settles O34: each round of the loop is the subtraction modulo 256 (`recoverByte_eq_sub`). -/
theorem recoveryHasSimplifiedForm : Obligations.RecoveryHasSimplifiedForm := by
  intro raw
  rw [← toList_recoverKey, toList_bank]
  simp only [recoverKey, recoverByte_eq_sub, derived, mod8_sub, List.map]
  rfl

/-- Settles O35. -/
theorem recoveryInvertsTheKeystream : Obligations.RecoveryInvertsTheKeystream := by
  intro K s hmasked
  rw [exec_kdfRecover, recoverKey_eq_iff.mpr hmasked]

/-- Settles O37: the two words are the signature masked with the header key's keystream. -/
theorem headerKeyIsRecoveredFromAHeader : Obligations.HeaderKeyIsRecoveredFromAHeader := by
  intro s a s0 t u w1 w2 hkey hinit hrun hraw
  obtain rfl := (exec_next hkey).2
  obtain ⟨t', hrun', -⟩ := xformSequence_started (feeds := [(w1, 4), (w2, 4)]) hinit (by simp [countsOk, countOk]) rfl
    (by simp)
  have houts := congrArg Prod.fst (Option.some.inj (hrun'.symm.trans hrun))
  rw [mapIdx_xor_eq_iff, streamOf_two_words, ← hraw] at houts
  exact exec_kdfRecover_of_masked houts

/-- Settles O38: recovery after unmasking is the inverse, both ways (`keystream_start_eq_iff`). -/
theorem keystreamStartIsABijection : Obligations.KeystreamStartIsABijection := by
  unfold Obligations.KeystreamStartIsABijection
  intro start unmask
  have hstart : ∀ K k, start K = k ↔ recoverKey (unmask k) = K := fun K k => keystream_start_eq_iff
  have hleft : ∀ K, recoverKey (unmask (start K)) = K := fun K => (hstart K _).mp rfl
  have hright : ∀ k, start (recoverKey (unmask k)) = k := fun k => (hstart _ k).mpr rfl
  refine ⟨Function.bijective_iff_has_inverse.mpr ⟨recoverKey ∘ unmask, hleft, hright⟩, fun K => ?_, fun k K h => ?_⟩
  · rw [← toList_recoverKey, hleft]
  · rw [← toList_recoverKey, Vector.toList_inj] at h
    exact (hstart K k).mpr h

/-- Settles O39: RAW is the signature masked with the recovered key's keystream, so the outputs are the signature. -/
theorem recoveredKeyPassesItsOwnBytes : Obligations.RecoveredKeyPassesItsOwnBytes := by
  intro s a b hrecover hinit
  obtain rfl := (exec_next hrecover).2
  have hmasked := recoverKey_eq_iff_toList.mp (rfl : recoverKey s.regs.raw = _)
  obtain ⟨t, hrun, hctr, hsig⟩ := xformSequence_started (feeds := [(bankLo s.regs.raw, 4), (bankHi s.regs.raw, 4)])
    (outs := sig.toList.take 8) hinit (by simp [countsOk, countOk])
    (by rw [mapIdx_xor_eq_iff, streamOf_two_words, lanes_bankLo_append_lanes_bankHi]; exact hmasked) (by decide)
  exact ⟨t, hrun, hsig.mpr (by decide), BitVec.eq_of_toNat_eq hctr⟩

/-- Settles O44: recovery gives the leaf's key back, and under it the leaf decrypts to the signature and the payload. -/
theorem genuineLeafDecryptsToItsPayload : Obligations.GenuineLeafDecryptsToItsPayload := by
  intro K payload feeds u a b hlen hok hstream hraw hrecover hinit
  have hmasked : u.regs.raw.toList = (sig.toList.take 8).mapIdx fun c p => p ^^^ keystream K c := by
    rw [hraw, hstream, take_mapIdx, List.take_append_of_le_length (by simp)]
  have ha := exec_kdfRecover_of_masked hmasked
  rw [hrecover] at ha
  obtain rfl := Host.Outcome.next.inj ha
  have hsigLen : sig.toList.length = 16 := rfl
  obtain ⟨t, hrun, hctr, hsig⟩ := xformSequence_started hinit hok (mapIdx_xor_eq_iff.mpr hstream) (by simpa using hlen)
  have hsigerr : t.regs.sigerr = false := hsig.mpr (by simp)
  refine ⟨_, t, hrun, ?sigdone, ?verdict, ?payload⟩
  case sigdone => simp [sigdone, hctr]
  case verdict => simp [blockVerdict, hsigerr]
  case payload => exact List.drop_left' hsigLen

end Sys2Proof.Proofs
end

section
/-! PROOFS. The stream cipher command by command (R140 to R144, R148) and from CIPH_INIT over a whole stream: the keystream (R146),
decryption as a second encryption (R147) and the split into commands (R149). -/

namespace Sys2Proof.Machine

/-- Bit 3 of STATUS is SIGDONE (R36). -/
theorem statusWord_getLsbD_three (r : Regs) : (statusWord r).getLsbD 3 = sigdone r := by
  simp [statusWord, flagBit]

/-- A command of count N takes N bytes (R72). -/
theorem inputBytes_length {n : Nat} (h : n ≤ 4) (r : Regs) : (inputBytes n r).length = n := List.length_take_of_le h

/-- Input byte `i` is lane `i` of DIN (R56, R72). -/
theorem inputBytes_getElem {n i : Nat} {r : Regs} (h : i < (inputBytes n r).length) : (inputBytes n r)[i] = lane r.din i := by
  have hi : i < 4 := lt_of_lt_of_le h (List.length_take_le' n (lanes r.din))
  simp only [inputBytes, List.getElem_take]
  interval_cases i <;> rfl

/-- A smaller count takes the first of the bytes (R72). -/
theorem take_inputBytes {i n : Nat} (h : i ≤ n) (r : Regs) : (inputBytes n r).take i = inputBytes i r := by
  rw [inputBytes, List.take_take, Nat.min_eq_left h, inputBytes]

/-- A word has no bits beyond its four lanes (R10). -/
theorem lane_of_four_le {i : Nat} (h : 4 ≤ i) (w : Word) : lane w i = 0 := by
  apply BitVec.eq_of_getLsbD_eq
  intro j _
  rw [lane, BitVec.getLsbD_extractLsb', BitVec.getLsbD_of_ge w _ (by omega)]
  simp

/-- The lanes of a packed word are the bytes packed, and 0 beyond them (R143). -/
theorem lane_ofLanes {bs : List Byte} (h : bs.length ≤ 4) (i : Nat) : lane (ofLanes bs) i = bs.getD i 0 := by
  by_cases hi : i < 4
  · rw [ofLanes]
    interval_cases i
    · exact lane_zero_le32 ..
    · exact lane_one_le32 ..
    · exact lane_two_le32 ..
    · exact lane_three_le32 ..
  · rw [lane_of_four_le (by omega), List.getD_eq_default _ _ (by omega)]

/-- The self-check fails at a counter below 16, on an output other than the signature's byte there (R144). -/
theorem sigMismatch_iff {c : Word} {o : Byte} : sigMismatch c o = true ↔ ∃ h : c.toNat < 16, o ≠ sig[c.toNat] := by
  by_cases h : c.toNat < 16 <;> simp [sigMismatch, h]

/-- The next keystream byte is one sum modulo 256: the key byte in turn, the rotated byte, and the counter's high bits (R141). -/
theorem nextKeystream_eq_mod8 (key : Vector Byte 8) (c : Word) (used : Byte) :
    nextKeystream key c used =
      mod8 ((key[c.toNat % 7 + 1]'(by omega)).toNat + (rotl8 used).toNat + (c.toNat >>> 6)) := rfl

/-- At counter 0 the keystream is reseeded from `KEY[0]` (R141). -/
theorem seeded_zero (key : Vector Byte 8) (lk : Byte) : seeded key 0 lk = key[0] := if_pos rfl

/-- At any other counter the keystream byte is LK (R141). -/
theorem seeded_of_ne_zero {c : Word} (h : c ≠ 0) (key : Vector Byte 8) (lk : Byte) : seeded key c lk = lk := if_neg h

/-- CIPH_XFORM changes DOUT, CTR, LK and SIGERR only (R142). -/
theorem effectOf_ciphXform_frame (n : Nat) (r : Regs) :
    effectOf (.ciphXform n) r =
      { r with
        dout := (effectOf (.ciphXform n) r).dout
        ctr := (effectOf (.ciphXform n) r).ctr
        lk := (effectOf (.ciphXform n) r).lk
        sigerr := (effectOf (.ciphXform n) r).sigerr } := by
  simp only [effectOf, transform_dout, transform_ctr, transform_lk, transform_sigerr]
  exact transform_frame _ _

/-- Before the first byte, LK is as it was. -/
theorem effectOf_ciphXform_zero_lk (r : Regs) : (effectOf (.ciphXform 0) r).lk = r.lk := by
  rw [effectOf, transform_lk, inputBytes, List.take_zero, xformBytes_nil]

/-- LK after `i + 1` bytes follows from LK after `i` bytes, whatever the bytes are (R141). -/
theorem effectOf_ciphXform_succ_lk {i : Nat} (h : i < 4) (r : Regs) :
    (effectOf (.ciphXform (i + 1)) r).lk =
      nextKeystream r.key (r.ctr + BitVec.ofNat 32 i)
        (seeded r.key (r.ctr + BitVec.ofNat 32 i) (effectOf (.ciphXform i) r).lk) := by
  have hlen : (inputBytes i r).length = i := inputBytes_length h.le r
  have hlt : i < (inputBytes (i + 1) r).length := by rw [inputBytes_length h]; omega
  have hbytes := xformBytes_take_succ hlt r
  rw [take_inputBytes le_rfl, take_inputBytes i.le_succ, xformByte_regs, xformBytes_ctr, xformBytes_key, hlen] at hbytes
  simp only [effectOf, transform_lk, hbytes]

/-- Lane `i` of DOUT is output byte `i` of the command, and 0 beyond the outputs (R143). -/
theorem lane_effectOf_ciphXform_dout {n : Nat} (h : n ≤ 4) (r : Regs) (i : Nat) :
    lane (effectOf (.ciphXform n) r).dout i = (xformBytes (inputBytes n r) r).1.getD i 0 := by
  rw [effectOf, transform_dout, lane_ofLanes (by rw [xformBytes_length, inputBytes_length h]; exact h)]

/-- Lane `i` of DOUT is lane `i` of DIN masked with the keystream byte that LK after `i` bytes gives (R141). -/
theorem lane_effectOf_ciphXform_dout_of_lt {n i : Nat} (h : n ≤ 4) (hi : i < n) (r : Regs) :
    lane (effectOf (.ciphXform n) r).dout i =
      lane r.din i ^^^ seeded r.key (r.ctr + BitVec.ofNat 32 i) (effectOf (.ciphXform i) r).lk := by
  have hlt : i < (inputBytes n r).length := by rwa [inputBytes_length h]
  rw [lane_effectOf_ciphXform_dout h, List.getD_eq_getElem _ _ (by rwa [xformBytes_length]), xformBytes_getElem hlt,
    inputBytes_getElem, take_inputBytes hi.le, effectOf, transform_lk]

/-- The lanes of DOUT beyond the count are 0 (R143). -/
theorem lane_effectOf_ciphXform_dout_of_le {n i : Nat} (h : n ≤ 4) (hi : n ≤ i) (r : Regs) :
    lane (effectOf (.ciphXform n) r).dout i = 0 := by
  rw [lane_effectOf_ciphXform_dout h, List.getD_eq_default _ _ (by rwa [xformBytes_length, inputBytes_length h])]

/-- CIPH_XFORM leaves SIGERR set if it was set, or if a lane of DOUT fails the self-check at its counter (R144). -/
theorem effectOf_ciphXform_sigerr {n : Nat} (h : n ≤ 4) (r : Regs) :
    (effectOf (.ciphXform n) r).sigerr = true ↔
      (r.sigerr = true ∨ ∃ i, i < n ∧ ∃ hc : (r.ctr + BitVec.ofNat 32 i).toNat < 16,
        lane (effectOf (.ciphXform n) r).dout i ≠ sig[(r.ctr + BitVec.ofNat 32 i).toNat]) := by
  have hlen : (inputBytes n r).length = n := inputBytes_length h r
  have hout : ∀ i, (hi : i < (xformBytes (inputBytes n r) r).1.length) →
      lane (effectOf (.ciphXform n) r).dout i = (xformBytes (inputBytes n r) r).1[i] := fun i hi => by
    rw [lane_effectOf_ciphXform_dout h, List.getD_eq_getElem _ _ hi]
  rw [effectOf, transform_sigerr, xformBytes_sigerr]
  refine or_congr_right (exists_congr fun i => ⟨?_, ?_⟩)
  · rintro ⟨hi, hm⟩
    rw [← hout, sigMismatch_iff] at hm
    exact ⟨hlen ▸ hi, hm⟩
  · rintro ⟨hi, hm⟩
    have hi : i < (inputBytes n r).length := hlen.symm ▸ hi
    refine ⟨hi, ?_⟩
    rw [← hout, sigMismatch_iff]
    exact hm

/-- From CIPH_INIT, LK is the keystream byte for the counter once a byte is processed, up to the wrap of the counter (R146). -/
theorem xformBytes_started_lk {bs : List Byte} (r : Regs) (h1 : 1 ≤ bs.length) (h : bs.length < 2 ^ 32) :
    (xformBytes bs (startBlock r)).2.lk = keystream r.key bs.length := by
  have hctr := xformBytes_started_ctr bs r h
  have hne : (xformBytes bs (startBlock r)).2.ctr ≠ 0 := fun h0 => by
    have hzero : bs.length = 0 := by rw [← hctr, h0]; rfl
    omega
  have hlk := xformBytes_synced bs (startBlock_synced r) hne
  rwa [hctr, xformBytes_key, startBlock_key] at hlk

/-- The keystream does not depend on the data, so the outputs transformed under the same key, CTR and LK are the inputs, however
many they are (R147). -/
theorem xformBytes_xformBytes (bs : List Byte) {r r' : Regs} (hk : r.key = r'.key) (hc : r.ctr = r'.ctr) (hl : r.lk = r'.lk) :
    (xformBytes (xformBytes bs r).1 r').1 = bs := by
  induction bs generalizing r r' with
  | nil => rfl
  | cons b bs ih =>
    have hhead : (xformByte (xformByte b r).1 r').1 = b := by
      rw [xformByte_out, xformByte_out, hk, hc, hl, BitVec.xor_assoc, BitVec.xor_self, BitVec.xor_zero]
    have htail := ih (r := (xformByte b r).2) (r' := (xformByte (xformByte b r).1 r').2)
      (by simp [xformByte_regs, hk]) (by simp [xformByte_regs, hc]) (by simp [xformByte_regs, hk, hc, hl])
    rw [xformBytes_cons, xformBytes_cons, hhead, htail]

end Sys2Proof.Machine

namespace Sys2Proof.Proofs
open Sys2Proof Sys2Proof.Machine

/-- Settles O24: LK before byte `i` is the one that CIPH_XFORM of the smaller count leaves, and the outputs are the lanes of DOUT. -/
theorem ciphXformTransformsLanesInOrder : Obligations.CiphXformTransformsLanesInOrder := by
  intro s n hn r c
  refine ⟨encode_ciphXform hn, fun i => (effectOf (.ciphXform i) r).lk,
    fun i => seeded r.key (c i) (effectOf (.ciphXform i) r).lk, fun i => lane (effectOf (.ciphXform n) r).dout i,
    effectOf_ciphXform_zero_lk r, fun i hi => ⟨rfl, ?out, ?lk⟩, fun i hi => ?beyond,
    (effectOf (.ciphXform n) r).sigerr, ?sigerr, ?result⟩
  case out => exact lane_effectOf_ciphXform_dout_of_lt hn.2 hi r
  case lk => exact (effectOf_ciphXform_succ_lk (lt_of_lt_of_le hi hn.2) r).trans (nextKeystream_eq_mod8 ..)
  case beyond => exact lane_effectOf_ciphXform_dout_of_le hn.2 hi r
  case sigerr => exact effectOf_ciphXform_sigerr hn.2 r
  case result =>
    have hctr : c n = (effectOf (.ciphXform n) r).ctr := (effectOf_ciphXform_ctr hn r).symm
    rw [le32_lanes, hctr]
    exact (exec_of_wf (wf_ciphXform.mpr hn) s).trans
      (congrArg (Host.Outcome.next ∘ s.withRegs) (effectOf_ciphXform_frame n s.regs))

/-- Settles O40: a started block is in sync with the keystream, and every byte keeps it so. -/
theorem outputsAreInputsXorKeystream : Obligations.OutputsAreInputsXorKeystream := by
  intro s s0 feeds hinit hok hlen
  obtain rfl := exec_ciphInit_next hinit
  obtain ⟨t, hrun, hctr, hlk, -⟩ := xformSequence_eq hok (s.withRegs (startBlock s.regs))
  rw [State.withRegs_regs] at hrun hctr hlk
  refine ⟨_, t, hrun, xformBytes_started _ _ hlen, ?ctr, fun h1 => ?lk⟩
  case ctr => rw [hctr, xformBytes_started_ctr _ _ hlen]
  case lk => rw [hlk, xformBytes_started_lk _ h1 hlen]

/-- Settles O41: both blocks start with the same key, CTR and LK (`xformBytes_xformBytes`). -/
theorem transformTwiceGivesInputBack : Obligations.TransformTwiceGivesInputBack := by
  intro s s' s0 s0' t feeds feeds' outs hinit hinit' hkey hok hok' hrun hstream
  obtain rfl := exec_ciphInit_next hinit
  obtain rfl := exec_ciphInit_next hinit'
  obtain ⟨u, hu, -⟩ := xformSequence_eq hok (s.withRegs (startBlock s.regs))
  obtain ⟨t', hrun', -⟩ := xformSequence_eq hok' (s'.withRegs (startBlock s'.regs))
  have houts : outs = (xformBytes (streamOf feeds) (startBlock s.regs)).1 :=
    congrArg Prod.fst (Option.some.inj (hrun.symm.trans hu))
  have hback : (xformBytes outs (startBlock s'.regs)).1 = streamOf feeds := by
    rw [houts]
    exact xformBytes_xformBytes _ hkey rfl rfl
  rw [hstream, State.withRegs_regs, hback] at hrun'
  exact ⟨t', hrun'⟩

/-- Settles O42: each run is that of the stream byte by byte (`xformSequence_eq`). -/
theorem splitIntoCommandsDoesNotMatter : Obligations.SplitIntoCommandsDoesNotMatter := by
  intro s s0 feeds feeds' _ hok hok' hstream
  obtain ⟨t, hrun, hctr, hlk, hsig, -⟩ := xformSequence_eq hok s0
  obtain ⟨t', hrun', hctr', hlk', hsig', -⟩ := xformSequence_eq hok' s0
  rw [← hstream] at hrun' hctr' hlk' hsig'
  exact ⟨_, t, t', hrun, hrun', hctr.trans hctr'.symm, hlk.trans hlk'.symm, hsig.trans hsig'.symm⟩

/-- Settles O45: the two bytes are those of counters 0xFFFFFFFF and 0, of which the second reseeds and is checked. -/
theorem counterWrapReseeds : Obligations.CounterWrapReseeds := by
  intro s hctr
  have hn : countOk 2 := by decide
  have hc0 : s.regs.ctr + BitVec.ofNat 32 0 = 0xFFFFFFFF := by rw [hctr]; decide
  have hc1 : s.regs.ctr + BitVec.ofNat 32 1 = 0 := by rw [hctr]; decide
  have hout1 : lane (effectOf (.ciphXform 2) s.regs).dout 1 = lane s.regs.din 1 ^^^ s.regs.key[0] := by
    rw [lane_effectOf_ciphXform_dout_of_lt hn.2 (by decide), hc1, seeded_zero]
  refine ⟨_, exec_of_wf rfl s, ?ctr, ?out0, hout1, ?sigerr, transform_ill _ _, transform_accerr _ _⟩
  case ctr =>
    rw [State.withRegs_regs, effectOf_ciphXform_ctr hn, hctr]
    decide
  case out0 =>
    rw [State.withRegs_regs, lane_effectOf_ciphXform_dout_of_lt hn.2 (by decide), hc0,
      seeded_of_ne_zero (by decide), effectOf_ciphXform_zero_lk]
  case sigerr =>
    rw [State.withRegs_regs, effectOf_ciphXform_sigerr hn.2]
    refine or_congr_right ⟨?_, fun hne => ⟨1, by decide, ?_⟩⟩
    · rintro ⟨i, hi, hlt, hne⟩
      interval_cases i
      · rw [hc0] at hlt
        exact absurd hlt (by decide)
      · simp only [hc1, hout1] at hne
        exact hne
    · simp only [hc1, hout1]
      exact ⟨by decide, hne⟩

/-- Settles O19: with the counter at 0, SIGDONE is 0. -/
theorem ciphInitStartsABlock : Obligations.CiphInitStartsABlock := by
  refine ⟨by decide, fun s => ⟨_, exec_of_wf rfl s, rfl, ?_⟩⟩
  rw [readSlot, statusWord_getLsbD_three]
  simp [sigdone, effectOf]

end Sys2Proof.Proofs
end

section
/-! PROOFS. What a host read returns and a host write stores, slot by slot (R163, R164), and the control commands NOP and SRESET
(R160, R162). -/

namespace Sys2Proof

/-- A word whose command takes no byte count is illegal unless it is its opcode alone (R73, R75). -/
theorem exists_decode_error_of_ne_opcode {w : Word} (hne : w.toNat ≠ w.toNat % 16) (hxform : w.toNat % 16 ≠ 2)
    (hfeed : w.toNat % 16 ≠ 6) : ∃ e, decode w = .error e := by
  rw [exists_decode_error_iff, opField_toNat, ne_eq, ne_eq, rsvField_eq_zero_iff, nm1Field_eq_zero_iff]
  omega

end Sys2Proof

namespace Sys2Proof.Machine

/-- Four packed bytes as the number they are (R10). -/
theorem le32_eq_ofNat (b0 b1 b2 b3 : Byte) :
    le32 b0 b1 b2 b3 = BitVec.ofNat 32 (b0.toNat + b1.toNat * 2 ^ 8 + b2.toNat * 2 ^ 16 + b3.toNat * 2 ^ 24) := by
  rw [← le32_toNat, BitVec.ofNat_toNat, BitVec.setWidth_eq]

/-- STATUS as the number of its flags (R36). -/
theorem statusWord_eq_ofNat (r : Regs) :
    statusWord r = BitVec.ofNat 32
      (r.ill.toNat + 2 * r.accerr.toNat + 4 * r.sigerr.toNat + 8 * (sigdone r).toNat + 16 * (cseq r).toNat) := by
  rw [← statusWord_toNat, BitVec.ofNat_toNat, BitVec.setWidth_eq]

/-- A write to STATUS keeps each flag whose bit is written 0 (R35). -/
theorem clearFlags_eq_and_not (v : Word) (r : Regs) :
    clearFlags v r =
      { r with
        ill := r.ill && !v.getLsbD 0
        accerr := r.accerr && !v.getLsbD 1
        sigerr := r.sigerr && !v.getLsbD 2 } := by
  have hflag : ∀ bit flag : Bool, (if bit then false else flag) = (flag && !bit) := by decide
  simp only [clearFlags, hflag]

/-- The low byte of a word is its lane 0 (R10). -/
theorem setWidth_eq_lane_zero (v : Word) : v.setWidth 8 = lane v 0 := BitVec.setWidth_eq_extractLsb' (by decide)

/-- The slots of the window in the order of their offsets (R50). -/
def slots : List Slot := (List.range 15).filterMap fun k => slotAt (4 * k)

theorem slots_eq : slots =
    [.cmd, .status, .din, .dout, .keyLo, .keyHi, .rawLo, .rawHi, .ctr, .lk, .csAcc, .csCarry, .csCnt, .csLen, .csExp] := rfl

/-- A step on a write to a slot that stores puts the word there and answers nothing (R163). -/
theorem step_of_store {s : State} {v : Word} {rest : List HostEvent} {sl : Slot} (hcmd : sl ≠ .cmd) (hdout : sl ≠ .dout)
    (hp : s.pending = .write sl.offset 4 v :: rest) : step s = .next ⟨writeSlot sl v s.regs, rest, none⟩ := by
  rw [step_of_inWindow hp sl.offset_lt_windowSize, applied_store hcmd hdout, answered]

end Sys2Proof.Machine

namespace Sys2Proof.Proofs
open Sys2Proof Sys2Proof.Machine

/-- Settles O9: the values listed are those of `readSlot`, and an ill-formed read is that of O8. -/
theorem hostReadReturnsSlotValue : Obligations.HostReadReturnsSlotValue := by
  intro s rest r pack status
  refine ⟨fun off v hmem hp => ?slot, fun off width hoff hbad hp => ?illFormed⟩
  case slot =>
    have hslots : (off, v) ∈ slots.map fun sl => (sl.offset, readSlot sl r) := by
      simpa only [slots_eq, List.map, Slot.offset, readSlot, bankLo, bankHi, le32_eq_ofNat, statusWord_eq_ofNat, sigdone, cseq,
        ← BitVec.ofNat_toNat] using hmem
    obtain ⟨sl, -, hsl⟩ := List.mem_map.mp hslots
    cases hsl
    exact step_of_read sl hp
  case illFormed =>
    exact (illFormedAccessOnlySetsAccerr s off width 0 rest hoff).1 hp hbad

/-- Settles O10: the registers listed are those of `writeSlot`, and an ill-formed write is that of O8. -/
theorem hostWriteStoresSlot : Obligations.HostWriteStoresSlot := by
  intro s v rest r b
  refine ⟨fun off r' hmem hp => ?store, fun hp => ?command, fun off width hoff hbad hp => ?illFormed⟩
  case store =>
    have hlane : lane v = b := rfl
    have hslots : (off, r') ∈ (.status :: readWriteSlots).map fun sl => (sl.offset, writeSlot sl v r) := by
      simpa only [readWriteSlots, List.map, Slot.offset, writeSlot, clearFlags_eq_and_not, setBankLo, setBankHi,
        setWidth_eq_lane_zero, hlane] using hmem
    obtain ⟨sl, hsl, heq⟩ := List.mem_map.mp hslots
    cases heq
    have hcmd : sl ≠ .cmd := by rintro rfl; simp [readWriteSlots] at hsl
    have hdout : sl ≠ .dout := by rintro rfl; simp [readWriteSlots] at hsl
    exact step_of_store hcmd hdout hp
  case command =>
    cases hd : decode v with
    | ok i => exact step_of_command hp hd
    | error e => exact step_of_illegalCommand hp hd
  case illFormed =>
    exact (illFormedAccessOnlySetsAccerr s off width v rest hoff).2 hp hbad

/-- Settles O18: NOP has no effect, and the other words of opcode 0 are not the opcode alone. -/
theorem nopLeavesEverything : Obligations.NopLeavesEverything := by
  refine ⟨by decide, fun w hop hne => ?illegal, exec_of_wf rfl⟩
  have hword : w.toNat ≠ 0 := fun h => hne (BitVec.eq_of_toNat_eq h)
  exact exists_decode_error_of_ne_opcode (by omega) (by omega) (by omega)

/-- Settles O20: the effect is the reset state, in which CS_ACC and CS_EXP agree, so STATUS shows CSEQ alone. -/
theorem sresetResetsEveryField : Obligations.SresetResetsEveryField := by
  refine ⟨by decide, fun w hop hne => ?illegal, fun s => ⟨_, exec_of_wf rfl s, rfl, ?status⟩⟩
  case illegal =>
    have hword : w.toNat ≠ 7 := fun h => hne (BitVec.eq_of_toNat_eq h)
    exact exists_decode_error_of_ne_opcode (by omega) (by omega) (by omega)
  case status =>
    have hreset : statusWord Regs.reset = 0x00000010 := by decide
    exact hreset

end Sys2Proof.Proofs
end

section
/-! PROOFS. The window as the unit's observer (R164, R214): the fifteen slots together determine every field. -/

namespace Sys2Proof.Machine

/-- The two halves of a bank hold all of its bytes (R24, R26). -/
theorem bank_eq_of_halves {b b' : Vector Byte 8} (hlo : bankLo b = bankLo b') (hhi : bankHi b = bankHi b') : b = b' := by
  rw [← setBankHi_setBankLo b b', ← hlo, ← hhi, setBankHi_setBankLo]

/-- LK reads zero-extended, so its byte is the low byte of the read (R28). -/
theorem setWidth_readSlot_lk (r : Regs) : (readSlot .lk r).setWidth 8 = r.lk := by
  rw [readSlot, BitVec.setWidth_setWidth_of_le _ (by decide), BitVec.setWidth_eq]

/-- Bits 0, 1 and 2 of STATUS are the stored flags (R36). -/
theorem statusWord_getLsbD_flags (r : Regs) :
    (statusWord r).getLsbD 0 = r.ill ∧ (statusWord r).getLsbD 1 = r.accerr ∧ (statusWord r).getLsbD 2 = r.sigerr := by
  simp [statusWord, flagBit]

theorem flags_eq_of_statusWord_eq {r r' : Regs} (h : statusWord r = statusWord r') :
    r.ill = r'.ill ∧ r.accerr = r'.accerr ∧ r.sigerr = r'.sigerr := by
  obtain ⟨hill, haccerr, hsigerr⟩ := statusWord_getLsbD_flags r
  obtain ⟨hill', haccerr', hsigerr'⟩ := statusWord_getLsbD_flags r'
  rw [← hill, ← haccerr, ← hsigerr, h]
  exact ⟨hill', haccerr', hsigerr'⟩

/-- Every field is a slot read as it stands, a bank in two slots, LK in the low byte of its slot, or a flag in STATUS. -/
theorem regs_eq_of_readSlot_eq {r r' : Regs} (h : ∀ sl, readSlot sl r = readSlot sl r') : r = r' := by
  have hkey : r.key = r'.key := bank_eq_of_halves (h .keyLo) (h .keyHi)
  have hraw : r.raw = r'.raw := bank_eq_of_halves (h .rawLo) (h .rawHi)
  have hlk : r.lk = r'.lk := by rw [← setWidth_readSlot_lk r, h, setWidth_readSlot_lk]
  obtain ⟨hill, haccerr, hsigerr⟩ := flags_eq_of_statusWord_eq (h .status)
  cases r
  cases r'
  rw [Regs.mk.injEq]
  exact ⟨h .din, h .dout, hkey, hraw, h .ctr, hlk, hsigerr, h .csAcc, h .csCarry, h .csCnt, h .csLen, h .csExp, hill, haccerr⟩

end Sys2Proof.Machine

namespace Sys2Proof.Proofs
open Sys2Proof Sys2Proof.Machine

/-- Settles O13: a 4-byte read at a slot's offset returns that slot. -/
theorem windowShowsEveryField : Obligations.WindowShowsEveryField := by
  intro r r' h
  refine regs_eq_of_readSlot_eq fun sl => ?_
  simpa only [hostRead_offset] using h sl.offset

end Sys2Proof.Proofs
end

section
/-! PROOFS. Reset (R230, R231), the step that every access and reset completes in (R255), and the events that leave a block's
key, CTR and LK as they are (R150, R241). -/

namespace Sys2Proof.Machine
open Sys2Proof.Safety

/-- A CMD write of a legal word runs the command it decodes to (R70). -/
theorem commandOf_of_decode {w : Word} {i : Instr} (hd : decode w = .ok i) : commandOf (.write 0x00 4 w) = some i := by
  simp [commandOf, wellFormedSlot, slotAt, hd, Except.toOption]

/-- A well-formed write stores to the slot at its offset (R53). -/
theorem slotWritten_store {sl : Slot} (hdout : sl ≠ .dout) (v : Word) : slotWritten (.write sl.offset 4 v) = some sl :=
  wellFormedSlot_write_offset hdout

/-- Of the commands, the two that load a key, CIPH_INIT, SRESET and CIPH_XFORM alone write the key, CTR or LK (R24, R27, R28). -/
theorem effectOf_cipher_frame {i : Instr} (hi : i ∉ [.kdfRecover, .keyHdr, .ciphInit, .sreset])
    (hx : ∀ n, i ≠ .ciphXform n) (r : Regs) :
    (effectOf i r).key = r.key ∧ (effectOf i r).ctr = r.ctr ∧ (effectOf i r).lk = r.lk := by
  cases i with
  | kdfRecover | keyHdr | ciphInit | sreset => simp at hi
  | ciphXform n => exact absurd rfl (hx n)
  | nop | csumInit | csumFeed _ => simp [effectOf]

/-- What the continuity duty forbids (R241): a reset, four stores and four commands. -/
theorem keepsBlock_excludes {e : HostEvent} (h : keepsBlock e = true) :
    e ≠ .hardReset ∧ (∀ sl, slotWritten e = some sl → sl ∉ [.ctr, .lk, .keyLo, .keyHi]) ∧
      ∀ i, commandOf e = some i → i ∉ [.kdfRecover, .keyHdr, .ciphInit, .sreset] := by
  simp only [keepsBlock, keepsKeystream, decide_eq_true_eq] at h
  obtain ⟨⟨hslot, hload⟩, hrestart, hreset⟩ := h
  refine ⟨hreset, fun sl hsl => ?store, fun i hi => ?command⟩
  case store => simpa [hsl] using hslot
  case command => simp_all

/-- The reset machine has no pending event (log entry 1), so any condition on those holds. -/
theorem forall_mem_reset_pending (allowed : HostEvent → Bool) : ∀ e ∈ State.reset.pending, allowed e = true :=
  List.forall_mem_nil _

/-- The hardware reset answers nothing and keeps the events after it (R230; log entry 8). -/
theorem step_of_hardReset {s : State} {rest : List HostEvent} (hp : s.pending = .hardReset :: rest) :
    step s = .next ⟨Regs.reset, rest, none⟩ :=
  step_of_inWindow hp trivial

/-- After reset STATUS shows CSEQ alone: CS_ACC and CS_EXP are both 0 (R203, R230). -/
theorem statusWord_reset : statusWord Regs.reset = 0x00000010 := by decide

end Sys2Proof.Machine

namespace Sys2Proof.Proofs
open Sys2Proof Sys2Proof.Machine Sys2Proof.Safety

/-- Settles O14: the events named are those in the window, where a step completes, and an idle step changes nothing. -/
theorem everyAccessCompletesInOneStep : Obligations.EveryAccessCompletesInOneStep := by
  refine ⟨fun s e rest hp hoff => ?pending, fun _ => step_idle⟩
  case pending =>
    have hwindow : inWindow e := by
      cases e with
      | hardReset => trivial
      | read | write => exact hoff
    exact ⟨_, step_of_inWindow hp hwindow, rfl⟩

/-- Settles O51: of the effects an event can have, those that reach the key, CTR or LK are excluded by the continuity duty. -/
theorem continuityKeepsTheBlock : Obligations.ContinuityKeepsTheBlock := by
  intro s t e rest hp hstep hkeep hxform
  obtain ⟨hreset, hstore, hcommand⟩ := keepsBlock_excludes hkeep
  obtain ⟨heff, -⟩ := step_next_of_pending hp hstep
  generalize t.regs = r' at heff ⊢
  cases heff with
  | reset he => exact absurd he hreset
  | read => exact ⟨rfl, rfl, rfl⟩
  | accessError | illegalCommand => simp
  | @command w i he hd =>
    have hi : commandOf e = some i := he ▸ commandOf_of_decode hd
    exact effectOf_cipher_frame (hcommand i hi) (fun n hn => hxform n (hn ▸ hi)) s.regs
  | @store sl v he hcmd hdout =>
    have hsl : slotWritten e = some sl := he ▸ slotWritten_store hdout v
    exact writeSlot_cipher_frame (hstore sl hsl) v s.regs

/-- Settles O50: CTR, CS_CNT, CS_ACC and CS_CARRY are 0, and the empty list of pending events is the model's choice (log entry 1). -/
theorem resetMeetsTheInvariants : Obligations.ResetMeetsTheInvariants :=
  ⟨⟨keystreamSynced_reset, forall_mem_reset_pending _⟩, ⟨countBounded_of_zero rfl, forall_mem_reset_pending _⟩,
    carryFollowsGroups_of_zero rfl rfl, forall_mem_reset_pending _⟩

/-- Settles O52: the listed values are those of `Regs.reset`, which SRESET and the hardware reset both leave. -/
theorem resetGivesTheListedValues : Obligations.ResetGivesTheListedValues := by
  unfold Obligations.ResetGivesTheListedValues
  intro r0
  have hr0 : r0 = Regs.reset := rfl
  rw [hr0]
  refine ⟨rfl, exec_of_wf rfl, fun _ _ => step_of_hardReset, ?status, hostRead_offset .cmd _⟩
  case status =>
    rw [← statusWord_reset]
    exact hostRead_offset .status _

end Sys2Proof.Proofs
end
